-- ==== Sys2Proof/Word.lean ====
section
/-! DEFINITION. The word types of the CHIP-8 core: bytes, 16-bit words, the 12-bit immediate address and the nibble
(00_scope.md R5, 30_encoding.md R71, R73). All values are unsigned. -/

namespace Sys2Proof

/-- A register, a timer or a byte of memory. -/
abbrev Byte := BitVec 8

/-- An instruction word, `I`, `pc` or a stack entry. -/
abbrev Word := BitVec 16

/-- The immediate `nnn`. -/
abbrev Addr := BitVec 12

/-- One hexadecimal digit of an instruction word: a register index `x`, `y` or a row count `n`. -/
abbrev Nibble := BitVec 4

end Sys2Proof
end

