-- ==== Sys2Proof/Machine/Flags.lean ====
section
/-! DEFINITION. The values VF receives as a flag, always exactly 0 or 1 (10_state.md R22, 42_alu.md R110). -/

namespace Sys2Proof.Machine

/-- `1 if c else 0`. -/
def flagByte (c : Bool) : Byte := if c then 1#8 else 0#8

/-- Carry: the exact sum exceeds 255 (42_alu.md R117). -/
def carryFlag (a b : Byte) : Byte := flagByte (255 < a.toNat + b.toNat)

/-- Not-borrow, strict: 0 for equal operands (42_alu.md R110 (c)). -/
def notBorrowFlag (minuend subtrahend : Byte) : Byte := flagByte (subtrahend.toNat < minuend.toNat)

/-- The bit a right shift by one moves out (42_alu.md R119). -/
def shiftRightFlag (b : Byte) : Byte := flagByte (b.getLsbD 0)

/-- The bit a left shift by one moves out (42_alu.md R121). -/
def shiftLeftFlag (b : Byte) : Byte := flagByte (b.getLsbD 7)

end Sys2Proof.Machine
end

