-- ==== Sys2Proof/Config.lean ====
section
/-! DEFINITION. What an instance of the core fixes (00_scope.md R4) and the free inputs of its host: the constants with no
body below are free values, of which nothing can be proved (notes/assumptions/2.md and 3.md). -/

namespace Sys2Proof.Config

/-- `MEM_SIZE`, 00_scope.md R4. -/
abbrev memSize : Nat := 4096

/-- `PROG_BASE`, the reset vector and the first address LOAD writes. -/
abbrev progBase : Nat := 0x200

/-- `PROG_MAX`, the longest program that fits. -/
abbrev progMax : Nat := 3584

/-- `FONT_BYTES`. -/
abbrev fontBytes : Nat := 80

/-- Glyphs 0 to 7 of the default `FONT` (10_state.md R32). -/
def fontLow : List Byte :=
  [0xF0, 0x90, 0x90, 0x90, 0xF0] ++ [0x20, 0x60, 0x20, 0x20, 0x70] ++
  [0xF0, 0x10, 0xF0, 0x80, 0xF0] ++ [0xF0, 0x10, 0xF0, 0x10, 0xF0] ++
  [0x90, 0x90, 0xF0, 0x10, 0x10] ++ [0xF0, 0x80, 0xF0, 0x10, 0xF0] ++
  [0xF0, 0x80, 0xF0, 0x90, 0xF0] ++ [0xF0, 0x10, 0x20, 0x40, 0x40]

/-- Glyphs 8 to F of the default `FONT` (10_state.md R32). -/
def fontHigh : List Byte :=
  [0xF0, 0x90, 0xF0, 0x90, 0xF0] ++ [0xF0, 0x90, 0xF0, 0x10, 0xF0] ++
  [0xF0, 0x90, 0xF0, 0x90, 0x90] ++ [0xE0, 0x90, 0xE0, 0x90, 0xE0] ++
  [0xF0, 0x80, 0x80, 0x80, 0xF0] ++ [0xE0, 0x90, 0x90, 0x90, 0xE0] ++
  [0xF0, 0x80, 0xF0, 0x80, 0xF0] ++ [0xF0, 0x80, 0xF0, 0x80, 0x80]

/-- The parameter `FONT[0..79]` at the default value the spec gives it (10_state.md R32, decision D16).
PRESUMED by the spec itself ("from general knowledge, not in source"), unsafe for an instance with another font:
a claim about the shape of a glyph is a claim about this constant. notes/assumptions/6.md. -/
def font (k : Nat) : Byte := (fontLow ++ fontHigh).getD k 0

/-- The `keys` argument of the `n`-th STEP of an open schedule: a free value (40_step_cycle.md R99; safe;
notes/assumptions/2.md). -/
opaque freeKeys : Nat → BitVec 16

/-- The `rnd` argument of the `n`-th STEP of an open schedule: a free value, under no law (42_alu.md R122, 40_step_cycle.md
R99; safe; notes/assumptions/2.md). -/
opaque freeRnd : Nat → Byte

/-- How many TICKs the host issues just before the `n`-th STEP of an open schedule: a free value, so that every
interleaving of STEP and TICK is a run (60_exceptions.md R170; safe; notes/assumptions/3.md). -/
opaque freeTicks : Nat → Nat

end Sys2Proof.Config
end

