-- ==== Sys2Proof/Machine/State.lean ====
section
/-! DEFINITION. The state of the core: every field of 10_state.md R20, plus the four fields that carry the host's inputs
(10_state.md R36 calls those inputs of the transitions; notes/assumptions/1.md to 5.md), and the reset state of R33. -/

namespace Sys2Proof.Machine

/-- The five fault causes with their info word (60_exceptions.md R161), as the latch `State.fault` holds them.
The spec describes what a fault does (R162, R163), so raising one is a NEXT state with the latch set
(notes/assumptions/8.md): no step of this model ends in `Host.Outcome.fault`. -/
inductive Fault where
  /-- Code 1. Raised by a STEP whose fetch finds `pc > 0xFFE`; info `pc`. Safe. -/
  | fetchRange (info : Word)
  /-- Code 2. Raised by Dxyn (`n >= 1`) and Fx65 when a byte of the range lies above 0xFFF; info `I`. Safe. -/
  | memReadRange (info : Word)
  /-- Code 3. Raised by Fx33 and Fx55 when a byte of the range lies above 0xFFF; info `I`. Safe. -/
  | memWriteRange (info : Word)
  /-- Code 4. Raised by 2nnn when sixteen entries are in use; info `pc`. Safe. -/
  | stackOverflow (info : Word)
  /-- Code 5. Raised by 00EE when the stack is empty; info `pc`. Safe. -/
  | stackUnderflow (info : Word)
  deriving DecidableEq, Repr

/-- Why a step could have no meaning. Every instruction has its meaning, so nothing raises it. -/
inductive Refusal where
  /-- An arm of `exec` whose instruction has no meaning yet: none is left. Safe. -/
  | notModelled (mnemonic : String)
  deriving DecidableEq, Repr

/-- The host's four atomic operations (00_scope.md R7; 60_exceptions.md R169, R170). -/
inductive HostOp where
  /-- RESET (70_reset_and_hazards.md R180). -/
  | reset
  /-- LOAD (20_memory.md R60). -/
  | load (bytes : List Byte)
  /-- TICK (60_exceptions.md R167). -/
  | tick
  /-- STEP with its two arguments (40_step_cycle.md R90). -/
  | step (keys : BitVec 16) (rnd : Byte)
  deriving DecidableEq, Repr

/-- Memory in its canonical form: addresses strictly rising, no entry equal to what an unlisted address reads as, the reset
contents (`resetByte`; notes/assumptions/7.md). -/
abbrev Memory := List Host.Cell

/-- `PIX`: 32 rows of 64 pixels (10_state.md R27, 44_display.md R140). -/
abbrev Canvas := Vector (Vector Bool 64) 32

/-- Every pixel off. -/
def blankCanvas : Canvas := Vector.replicate 32 (Vector.replicate 64 false)

/-- The whole state (10_state.md R20). -/
structure State where
  /-- `MEM[0..4095]`, R31. -/
  mem : Memory
  /-- `V[0..15]`, R21. -/
  v : Vector Byte 16
  /-- The index register `I`, R23. -/
  i : Word
  /-- The program counter, 16 bits, never masked, R24. -/
  pc : Word
  /-- `STACK[0..15]`, R25. -/
  stack : Vector Word 16
  /-- `SP`, the number of entries in use, 0 to 16, R25. -/
  sp : Fin 17
  /-- The delay timer, R26. -/
  dt : Byte
  /-- The sound timer, R26. -/
  st : Byte
  /-- The pixel grid, R27. -/
  pix : Canvas
  /-- The dirty flag, R28. -/
  dirty : Bool
  /-- The key-wait flag, R29. -/
  waiting : Bool
  /-- The register the awaited key goes to, R29. -/
  waitReg : Nibble
  /-- The sticky fault latch, R30. -/
  fault : Option Fault
  /-- The model's own: the `keys` argument of the STEP under way (40_step_cycle.md R99). -/
  keys : BitVec 16
  /-- The model's own: the `rnd` argument of the STEP under way (40_step_cycle.md R99). -/
  rnd : Byte
  /-- The model's own: the host's operations still to come, first one next. Empty: an open schedule. -/
  schedule : List HostOp
  /-- The model's own: how many STEPs an open schedule has given, the index of the free values. -/
  draws : Nat
  deriving DecidableEq, Repr

/-- The state right after RESET (10_state.md R33). The values of `keys`, `rnd`, `schedule` and `draws` are the model's
(DESIGN CHOICE, notes/assumptions/4.md and 5.md). -/
def State.reset : State where
  mem := []
  v := Vector.replicate 16 0#8
  i := 0#16
  pc := BitVec.ofNat 16 Config.progBase
  stack := Vector.replicate 16 0#16
  sp := 0
  dt := 0#8
  st := 0#8
  pix := blankCanvas
  dirty := false
  waiting := false
  waitReg := 0#4
  fault := none
  keys := 0#16
  rnd := 0#8
  schedule := []
  draws := 0

end Sys2Proof.Machine
end

