-- ==== Sys2Proof/Machine/Ops.lean ====
section
/-! DEFINITION. The named operations over memory, registers, `pc`, the stack and the canvas, and taking a fault: every
access of a meaning goes through one of these. -/

namespace Sys2Proof.Machine

/-- What a step or a meaning answers. -/
abbrev Result := Host.Outcome State Fault Refusal

/-! ## Memory (20_memory.md) -/

/-- What an address nothing has written reads as: the reset contents, FONT then zeros (10_state.md R31, R33). -/
def resetByte (a : Nat) : Byte := if a < Config.fontBytes then Config.font a else 0#8

/-- The listed byte at an address, if there is one. -/
def Memory.find (m : Memory) (a : Nat) : Option Byte :=
  match m with
  | [] => none
  | (b, u) :: rest => if b = a then some u else Memory.find rest a

/-- `MEM[a]` (20_memory.md R55); callers check the range first. -/
def Memory.read (m : Memory) (a : Nat) : Byte := (m.find a).getD (resetByte a)

/-- Put an entry where the rising order wants it. -/
def Memory.insert (m : Memory) (a : Nat) (u : Byte) : Memory :=
  match m with
  | [] => [(a, u)]
  | (b, w) :: rest => if a < b then (a, u) :: (b, w) :: rest else (b, w) :: Memory.insert rest a u

/-- `MEM[a] <- u` (20_memory.md R56); callers check the range first. The entry of `a` goes, and a new one comes unless the
byte is what an unlisted address reads as. -/
def Memory.write (m : Memory) (a : Nat) (u : Byte) : Memory :=
  let cleared := m.filter (fun c => c.1 ≠ a)
  if u = resetByte a then cleared else Memory.insert cleared a u

/-- Store bytes at ascending addresses (20_memory.md R53). -/
def Memory.writeBytes (m : Memory) (a : Nat) (bytes : List Byte) : Memory :=
  match bytes with
  | [] => m
  | u :: rest => (m.write a u).writeBytes (a + 1) rest

/-- The `len` bytes at ascending addresses from `a` (20_memory.md R53). -/
def Memory.readBytes (m : Memory) (a : Nat) (len : Nat) : List Byte :=
  match len with
  | 0 => []
  | len + 1 => m.read a :: m.readBytes (a + 1) len

/-- The canonical form: addresses below `MEM_SIZE`, strictly rising, no entry equal to the reset contents. -/
abbrev Memory.wf (m : Memory) : Prop :=
  m.Pairwise (fun c d => c.1 < d.1) ∧ ∀ c ∈ m, c.1 < Config.memSize ∧ c.2 ≠ resetByte c.1

/-- The range check of an access to the `len` bytes `base .. base + len - 1`, exact and made before any effect
(20_memory.md R57): true when a byte of it lies above 0xFFF. An access of no byte is never out of range. -/
def outOfRange (base : Word) (len : Nat) : Bool := 1 ≤ len && 0xFFF < base.toNat + len - 1

/-! ## Registers, I, timers (10_state.md R21 to R26) -/

/-- `V[r]`. -/
def State.getV (s : State) (r : Nibble) : Byte := s.v[r.toNat]'r.isLt

/-- `V[r] <- b`. -/
def State.setV (s : State) (r : Nibble) (b : Byte) : State := { s with v := s.v.set r.toNat b r.isLt }

/-- `VF`, an ordinary register that some instructions also write as a flag (10_state.md R22). -/
abbrev regF : Nibble := 0xF#4

/-- Write registers from `V[k]` upward, in order. -/
def State.setVs (s : State) (k : Nat) (bytes : List Byte) : State :=
  match bytes with
  | [] => s
  | b :: rest => (s.setV (BitVec.ofNat 4 k) b).setVs (k + 1) rest

/-- `I <- w`. -/
def State.setI (s : State) (w : Word) : State := { s with i := w }

/-- `DT <- b`. -/
def State.setDT (s : State) (b : Byte) : State := { s with dt := b }

/-- `ST <- b`. -/
def State.setST (s : State) (b : Byte) : State := { s with st := b }

/-- `MEM <- m`. -/
def State.setMem (s : State) (m : Memory) : State := { s with mem := m }

/-! ## The program counter (41_control_flow.md R100) -/

/-- `jump(a)`. -/
def State.jump (s : State) (a : Word) : State := { s with pc := a }

/-- `advance()`. -/
def State.advance (s : State) : State := s.jump (s.pc + 2#16)

/-- `skip()`. -/
def State.skip (s : State) : State := s.jump (s.pc + 4#16)

/-- `if c: skip() else: advance()` (40_step_cycle.md R96). -/
def State.skipIf (s : State) (c : Bool) : State := if c then s.skip else s.advance

/-! ## The call stack (10_state.md R25) -/

/-- `STACK[SP] <- a; SP <- SP + 1`, where there is room. -/
def State.push (s : State) (a : Word) (room : s.sp.val < 16) : State :=
  { s with stack := s.stack.set s.sp.val a room, sp := ⟨s.sp.val + 1, Nat.succ_lt_succ room⟩ }

/-- The top of the stack, `STACK[SP - 1]`. -/
def State.top (s : State) (used : 0 < s.sp.val) : Word := s.stack[s.sp.val - 1]'(by have := s.sp.isLt; omega)

/-- `SP <- SP - 1`; the entry keeps its value. -/
def State.pop (s : State) : State := { s with sp := ⟨s.sp.val - 1, by have := s.sp.isLt; omega⟩ }

/-! ## The canvas (44_display.md R140) -/

/-- `PIX[yy][xx]`. -/
def pixelAt (p : Canvas) (yy : Fin 32) (xx : Fin 64) : Bool := (p[yy])[xx]

/-- `PIX[yy][xx] <- b`. -/
def setPixel (p : Canvas) (yy : Fin 32) (xx : Fin 64) (b : Bool) : Canvas := p.set yy ((p[yy]).set xx b)

/-- Put a new grid and dirty flag. -/
def State.setCanvas (s : State) (p : Canvas) (d : Bool) : State := { s with pix := p, dirty := d }

/-- `waiting <- b; wait_reg <- r` (10_state.md R29). -/
def State.setWait (s : State) (b : Bool) (r : Nibble) : State := { s with waiting := b, waitReg := r }

/-! ## Taking a fault, and the way out of it (60_exceptions.md) -/

/-- `fault <- f`: the latch is set and nothing else changes (R162). -/
def State.latch (s : State) (f : Fault) : State := { s with fault := some f }

/-- `raise Fault(cause, info)` (R162): the instruction is abandoned with none of its effects, `pc` keeps its address, the
latch is set. There is no handler and no vector, and the core goes on as R163 says, so this is a next state. -/
def raiseFault (f : Fault) (s : State) : Result := .next (s.latch f)

/-- The core has a fault latched (R163). -/
def State.faulted (s : State) : Bool := s.fault.isSome

/-- RESET (70_reset_and_hazards.md R180), the only way out of a fault: there is no return from one (R163). Every field of
the core takes its reset value; the host's operations still to come and the count of free values are not the core's. -/
def opReset (s : State) : State := { State.reset with schedule := s.schedule, draws := s.draws }

/-- The cause code of R161's table. -/
def Fault.code (f : Fault) : Nat :=
  match f with
  | .fetchRange _ => 1
  | .memReadRange _ => 2
  | .memWriteRange _ => 3
  | .stackOverflow _ => 4
  | .stackUnderflow _ => 5

/-- The info word of R161's table. -/
def Fault.info (f : Fault) : Word :=
  match f with
  | .fetchRange w | .memReadRange w | .memWriteRange w | .stackOverflow w | .stackUnderflow w => w

end Sys2Proof.Machine
end

