-- ==== Sys2Proof/Machine/Alu.lean ====
section
/-! DEFINITION. Register loads, arithmetic, logic, shifts, random (42_alu.md). The order of the two writes of the flag
instructions is R110 (f): 8xy4 computes from the old values and writes VF last; 8xy5, 8xy6, 8xy7, 8xyE write VF first and
read the registers again. None of these instructions faults. -/

namespace Sys2Proof.Machine

/-- `V[x] <- b; advance()`: the shape of every instruction here that writes one register. -/
def writeReg (x : Nibble) (b : Byte) (s : State) : Result := .next (s.setV x b).advance

/-- `V[0xF] <- flag`, then `V[x] <- f` of the registers read again, then `advance()` (R110 (f)). -/
def flagThenReg (flag : Byte) (x : Nibble) (f : State → Byte) (s : State) : Result :=
  let s₁ := s.setV regF flag
  writeReg x (f s₁) s₁

/-- 6xkk (R111). -/
def execLdByte (x : Nibble) (kk : Byte) (s : State) : Result := writeReg x kk s

/-- 7xkk (R112): wraps, and no flag. -/
def execAddByte (x : Nibble) (kk : Byte) (s : State) : Result := writeReg x (s.getV x + kk) s

/-- 8xy0 (R113). -/
def execLdReg (x y : Nibble) (s : State) : Result := writeReg x (s.getV y) s

/-- 8xy1 (R114). -/
def execOrReg (x y : Nibble) (s : State) : Result := writeReg x (s.getV x ||| s.getV y) s

/-- 8xy2 (R115). -/
def execAndReg (x y : Nibble) (s : State) : Result := writeReg x (s.getV x &&& s.getV y) s

/-- 8xy3 (R116). -/
def execXorReg (x y : Nibble) (s : State) : Result := writeReg x (s.getV x ^^^ s.getV y) s

/-- 8xy4 (R117): both read before any write, the low 8 bits to `V[x]`, then the carry to VF. -/
def execAddReg (x y : Nibble) (s : State) : Result :=
  let a := s.getV x
  let b := s.getV y
  writeReg regF (carryFlag a b) (s.setV x (a + b))

/-- 8xy5 (R118): VF is the strict not-borrow of `V[x] - V[y]`, then the registers are read again. -/
def execSubReg (x y : Nibble) (s : State) : Result :=
  flagThenReg (notBorrowFlag (s.getV x) (s.getV y)) x (fun s₁ => s₁.getV x - s₁.getV y) s

/-- 8xy6 (R119): `y` is ignored. -/
def execShr (x _y : Nibble) (s : State) : Result :=
  flagThenReg (shiftRightFlag (s.getV x)) x (fun s₁ => s₁.getV x >>> 1) s

/-- 8xy7 (R120): the reverse subtraction, `V[y] - V[x]`. -/
def execSubnReg (x y : Nibble) (s : State) : Result :=
  flagThenReg (notBorrowFlag (s.getV y) (s.getV x)) x (fun s₁ => s₁.getV y - s₁.getV x) s

/-- 8xyE (R121): `y` is ignored. -/
def execShl (x _y : Nibble) (s : State) : Result :=
  flagThenReg (shiftLeftFlag (s.getV x)) x (fun s₁ => s₁.getV x <<< 1) s

/-- Cxkk (R122): the STEP's own random byte AND `kk`. -/
def execRnd (x : Nibble) (kk : Byte) (s : State) : Result := writeReg x (s.rnd &&& kk) s

end Sys2Proof.Machine
end

