-- ==== Sys2Proof/Machine/Operands.lean ====
section
/-! DEFINITION. The operand forms of the instructions (30_encoding.md R73) and the implicit operands some of them read:
the key a register names, the registers V0 to Vx, the bytes at `I`, the decimal digits of a register. -/

namespace Sys2Proof.Machine

/-- `zext_16(nnn)` (30_encoding.md R73). -/
def zextAddr (nnn : Addr) : Word := nnn.setWidth 16

/-- `zext_16(b)` (00_scope.md R6). -/
def zextByte (b : Byte) : Word := b.setWidth 16

/-- `(V[x] <= 15) and (keys[V[x]] = 1)` (45_keypad_timers.md R150). -/
def State.keyPressed (s : State) (code : Byte) : Bool := code.toNat ≤ 15 && s.keys.getLsbD code.toNat

/-- The lowest `k` with `keys[k] = 1`, as a byte (40_step_cycle.md R92). -/
def lowestKey (keys : BitVec 16) : Option Byte :=
  ((List.range 16).find? (fun k => keys.getLsbD k)).map (BitVec.ofNat 8)

/-- `V[0], …, V[x]` (43_index_memory.md R134). -/
def State.regsUpTo (s : State) (x : Nibble) : List Byte := s.v.toList.take (x.toNat + 1)

/-- `MEM[I], …, MEM[I + len - 1]` (43_index_memory.md R136). -/
def State.bytesAtI (s : State) (len : Nat) : List Byte := s.mem.readBytes s.i.toNat len

/-- Hundreds, tens, ones (43_index_memory.md R133). -/
def bcdDigits (b : Byte) : List Byte := [b / 100#8, b / 10#8 % 10#8, b % 10#8]

end Sys2Proof.Machine
end

