-- ==== Sys2Proof/Machine/ControlFlow.lean ====
section
/-! DEFINITION. Control transfer: 00EE, 1nnn, 2nnn, Bnnn and the register skips (41_control_flow.md). -/

namespace Sys2Proof.Machine

/-- 00EE (R103): an empty stack faults; else the pointer goes down first and the entry it then indexes is the target. -/
def execRet (s : State) : Result :=
  if used : 0 < s.sp.val then .next (s.pop.jump (s.top used))
  else raiseFault (.stackUnderflow s.pc) s

/-- 1nnn (R101). -/
def execJp (nnn : Addr) (s : State) : Result := .next (s.jump (zextAddr nnn))

/-- 2nnn (R102): sixteen entries in use faults; else `pc + 2` is pushed. -/
def execCall (nnn : Addr) (s : State) : Result :=
  if room : s.sp.val < 16 then .next ((s.push (s.pc + 2#16) room).jump (zextAddr nnn))
  else raiseFault (.stackOverflow s.pc) s

/-- 3xkk (R105). -/
def execSeByte (x : Nibble) (kk : Byte) (s : State) : Result := .next (s.skipIf (s.getV x = kk))

/-- 4xkk (R106). -/
def execSneByte (x : Nibble) (kk : Byte) (s : State) : Result := .next (s.skipIf (s.getV x ≠ kk))

/-- 5xy0 (R107). -/
def execSeReg (x y : Nibble) (s : State) : Result := .next (s.skipIf (s.getV x = s.getV y))

/-- 9xy0 (R108). -/
def execSneReg (x y : Nibble) (s : State) : Result := .next (s.skipIf (s.getV x ≠ s.getV y))

/-- Bnnn (R104): the 16-bit sum is not masked, and the register is always V0. -/
def execJpV0 (nnn : Addr) (s : State) : Result := .next (s.jump (zextAddr nnn + zextByte (s.getV 0#4)))

end Sys2Proof.Machine
end

