-- ==== Sys2Proof/Machine/Display.lean ====
section
/-! DEFINITION. The canvas operations and the two instructions that call them (44_display.md). The sprite engine is the
spec's own double loop, pixel by pixel. -/

namespace Sys2Proof.Machine

/-- What the sprite engine carries through its loops: the grid, the collision signal and the dirty flag (R142). -/
structure Drawing where
  pix : Canvas
  collision : Bool
  dirty : Bool
  deriving DecidableEq, Repr

/-- The body of R142's inner loop for one sprite bit. -/
def Drawing.plot (d : Drawing) (yy : Fin 32) (xx : Fin 64) (bit : Bool) : Drawing :=
  if bit then
    { pix := setPixel d.pix yy xx (!pixelAt d.pix yy xx)
      collision := d.collision || pixelAt d.pix yy xx
      dirty := true }
  else d

/-- R142's inner loop over the columns still to do: bit `k` of the row stands at column `7 - k`. -/
def Drawing.columns (d : Drawing) (x0 y : Nat) (row : Byte) (todo : Nat) : Drawing :=
  match todo with
  | 0 => d
  | k + 1 => (d.plot (Fin.ofNat 32 y) (Fin.ofNat 64 (x0 + (7 - k))) (row.getLsbD k)).columns x0 y row k

/-- R142's outer loop: the rows from the one at height `y` down. -/
def Drawing.rows (d : Drawing) (x0 y : Nat) (sprite : List Byte) : Drawing :=
  match sprite with
  | [] => d
  | row :: rest => (d.columns x0 y row 8).rows x0 (y + 1) rest

/-- `draw_sprite(x0, y0, rows)` (R142). -/
def drawSprite (x0 y0 : Byte) (sprite : List Byte) (s : State) : Drawing :=
  Drawing.rows { pix := s.pix, collision := false, dirty := s.dirty } x0.toNat y0.toNat sprite

/-- `clear()` (R141): the dirty flag becomes true iff some pixel was lit, and is never made false. -/
def clearCanvas (s : State) : State := s.setCanvas blankCanvas (s.dirty || decide (s.pix ≠ blankCanvas))

/-- 00E0 (R143): VF is not written. -/
def execCls (s : State) : Result := .next (clearCanvas s).advance

/-- Dxyn (R144): the coordinates are read before VF is written; `n = 0` reads and draws nothing and sets VF to 0. -/
def execDrw (x y n : Nibble) (s : State) : Result :=
  if outOfRange s.i n.toNat then raiseFault (.memReadRange s.i) s
  else
    let d := drawSprite (s.getV x) (s.getV y) (s.bytesAtI n.toNat) s
    .next ((s.setCanvas d.pix d.dirty).setV regF (flagByte d.collision)).advance

end Sys2Proof.Machine
end

