-- ==== Sys2Proof/Machine/IndexMemory.lean ====
section
/-! DEFINITION. The index register and the memory instructions (43_index_memory.md). `I` is never changed by an access, and
the whole range is checked before any effect (R136, 20_memory.md R57). -/

namespace Sys2Proof.Machine

/-- Store the bytes at `I` upward and advance, or fault with nothing stored (20_memory.md R56, R57). -/
def storeAtI (bytes : List Byte) (s : State) : Result :=
  if outOfRange s.i bytes.length then raiseFault (.memWriteRange s.i) s
  else .next (s.setMem (s.mem.writeBytes s.i.toNat bytes)).advance

/-- Annn (R130). -/
def execLdI (nnn : Addr) (s : State) : Result := .next (s.setI (zextAddr nnn)).advance

/-- Fx1E (R131): wraps modulo 65536, and VF is not written. -/
def execAddI (x : Nibble) (s : State) : Result := .next (s.setI (s.i + zextByte (s.getV x))).advance

/-- Fx29 (R132): all eight bits of `V[x]`. -/
def execLdFont (x : Nibble) (s : State) : Result := .next (s.setI (zextByte (s.getV x) * 5#16)).advance

/-- Fx33 (R133). -/
def execBcd (x : Nibble) (s : State) : Result := storeAtI (bcdDigits (s.getV x)) s

/-- Fx55 (R134). -/
def execDump (x : Nibble) (s : State) : Result := storeAtI (s.regsUpTo x) s

/-- Fx65 (R135). -/
def execLoad (x : Nibble) (s : State) : Result :=
  if outOfRange s.i (x.toNat + 1) then raiseFault (.memReadRange s.i) s
  else .next (s.setVs 0 (s.bytesAtI (x.toNat + 1))).advance

end Sys2Proof.Machine
end

