-- ==== Sys2Proof/Machine/KeypadTimers.lean ====
section
/-! DEFINITION. The keypad and timer instructions (45_keypad_timers.md). None of them faults. -/

namespace Sys2Proof.Machine

/-- Ex9E (R150): a code above 15 is never pressed. -/
def execSkp (x : Nibble) (s : State) : Result := .next (s.skipIf (s.keyPressed (s.getV x)))

/-- ExA1 (R151). -/
def execSknp (x : Nibble) (s : State) : Result := .next (s.skipIf (!s.keyPressed (s.getV x)))

/-- Fx07 (R153). -/
def execLdFromDT (x : Nibble) (s : State) : Result := .next (s.setV x s.dt).advance

/-- Fx0A (R152): starts the wait, reads no key and writes no register; the key comes in a later STEP (`deliverKey`). -/
def execWaitKey (x : Nibble) (s : State) : Result := .next (s.setWait true x).advance

/-- Fx15 (R154). -/
def execLdToDT (x : Nibble) (s : State) : Result := .next (s.setDT (s.getV x)).advance

/-- Fx18 (R155). -/
def execLdToST (x : Nibble) (s : State) : Result := .next (s.setST (s.getV x)).advance

end Sys2Proof.Machine
end

