-- ==== Sys2Proof/Syntax.lean ====
section
/-! DEFINITION. The 34 instruction patterns of 30_encoding.md R74, one constructor each, in the table's order. A
constructor's name follows the listing mnemonic; its docstring gives the pattern, which is the normative name (R79). -/

namespace Sys2Proof

/-- One constructor per row of spec/opcode_table.json. The fields are exactly the operand fields of the row. -/
inductive Instr where
  /-- `00E0` CLS. -/
  | cls
  /-- `00EE` RET. -/
  | ret
  /-- `1nnn` JP nnn. -/
  | jp (nnn : Addr)
  /-- `2nnn` CALL nnn. -/
  | call (nnn : Addr)
  /-- `3xkk` SE Vx, kk. -/
  | seByte (x : Nibble) (kk : Byte)
  /-- `4xkk` SNE Vx, kk. -/
  | sneByte (x : Nibble) (kk : Byte)
  /-- `5xy0` SE Vx, Vy. -/
  | seReg (x y : Nibble)
  /-- `6xkk` LD Vx, kk. -/
  | ldByte (x : Nibble) (kk : Byte)
  /-- `7xkk` ADD Vx, kk. -/
  | addByte (x : Nibble) (kk : Byte)
  /-- `8xy0` LD Vx, Vy. -/
  | ldReg (x y : Nibble)
  /-- `8xy1` OR Vx, Vy. -/
  | orReg (x y : Nibble)
  /-- `8xy2` AND Vx, Vy. -/
  | andReg (x y : Nibble)
  /-- `8xy3` XOR Vx, Vy. -/
  | xorReg (x y : Nibble)
  /-- `8xy4` ADD Vx, Vy. -/
  | addReg (x y : Nibble)
  /-- `8xy5` SUB Vx, Vy. -/
  | subReg (x y : Nibble)
  /-- `8xy6` SHR Vx; `y` is decoded and not used (R77). -/
  | shr (x y : Nibble)
  /-- `8xy7` SUBN Vx, Vy. -/
  | subnReg (x y : Nibble)
  /-- `8xyE` SHL Vx; `y` is decoded and not used (R77). -/
  | shl (x y : Nibble)
  /-- `9xy0` SNE Vx, Vy. -/
  | sneReg (x y : Nibble)
  /-- `Annn` LD I, nnn. -/
  | ldI (nnn : Addr)
  /-- `Bnnn` JP V0, nnn. -/
  | jpV0 (nnn : Addr)
  /-- `Cxkk` RND Vx, kk. -/
  | rnd (x : Nibble) (kk : Byte)
  /-- `Dxyn` DRW Vx, Vy, n. -/
  | drw (x y n : Nibble)
  /-- `Ex9E` SKP Vx. -/
  | skp (x : Nibble)
  /-- `ExA1` SKNP Vx. -/
  | sknp (x : Nibble)
  /-- `Fx07` LD Vx, DT. -/
  | ldFromDT (x : Nibble)
  /-- `Fx0A` LD Vx, K. -/
  | waitKey (x : Nibble)
  /-- `Fx15` LD DT, Vx. -/
  | ldToDT (x : Nibble)
  /-- `Fx18` LD ST, Vx. -/
  | ldToST (x : Nibble)
  /-- `Fx1E` ADD I, Vx. -/
  | addI (x : Nibble)
  /-- `Fx29` LD F, Vx. -/
  | ldFont (x : Nibble)
  /-- `Fx33` LD B, Vx. -/
  | bcd (x : Nibble)
  /-- `Fx55` LD [I], Vx. -/
  | dump (x : Nibble)
  /-- `Fx65` LD Vx, [I]. -/
  | load (x : Nibble)
  deriving DecidableEq, Repr

end Sys2Proof
end

