-- ==== Sys2Proof/Decode.lean ====
section
/-! DEFINITION. The decoder (30_encoding.md R70 to R78), the encoder written from the same table, and the table's mask and
match columns. A word is read as four nibbles `(a, b, c, d)`, as the source does (R71). -/

namespace Sys2Proof

/-- `w[15:12]` (30_encoding.md R71). -/
def nibbleA (w : Word) : Nibble := w.extractLsb' 12 4
/-- `w[11:8]`, the field `x`. -/
def nibbleB (w : Word) : Nibble := w.extractLsb' 8 4
/-- `w[7:4]`, the field `y`. -/
def nibbleC (w : Word) : Nibble := w.extractLsb' 4 4
/-- `w[3:0]`, the field `n`. -/
def nibbleD (w : Word) : Nibble := w.extractLsb' 0 4
/-- `w[7:0]`, the field `kk`. -/
def fieldKK (w : Word) : Byte := w.extractLsb' 0 8
/-- `w[11:0]`, the field `nnn`. -/
def fieldNNN (w : Word) : Addr := w.extractLsb' 0 12

/-- Group 0: only 00E0 and 00EE, all sixteen bits matched (R75, decision D28). -/
def decode0 (nnn : Addr) : Option Instr :=
  if nnn = 0x0E0#12 then some .cls
  else if nnn = 0x0EE#12 then some .ret
  else none

/-- Group 8: the function nibble selects the operation (R75). -/
def decode8 (x y d : Nibble) : Option Instr :=
  if d = 0x0#4 then some (.ldReg x y)
  else if d = 0x1#4 then some (.orReg x y)
  else if d = 0x2#4 then some (.andReg x y)
  else if d = 0x3#4 then some (.xorReg x y)
  else if d = 0x4#4 then some (.addReg x y)
  else if d = 0x5#4 then some (.subReg x y)
  else if d = 0x6#4 then some (.shr x y)
  else if d = 0x7#4 then some (.subnReg x y)
  else if d = 0xE#4 then some (.shl x y)
  else none

/-- Group E: the low byte selects the key skip (R75). -/
def decodeE (x : Nibble) (kk : Byte) : Option Instr :=
  if kk = 0x9E#8 then some (.skp x)
  else if kk = 0xA1#8 then some (.sknp x)
  else none

/-- Group F: the low byte selects the operation (R75). -/
def decodeF (x : Nibble) (kk : Byte) : Option Instr :=
  if kk = 0x07#8 then some (.ldFromDT x)
  else if kk = 0x0A#8 then some (.waitKey x)
  else if kk = 0x15#8 then some (.ldToDT x)
  else if kk = 0x18#8 then some (.ldToST x)
  else if kk = 0x1E#8 then some (.addI x)
  else if kk = 0x29#8 then some (.ldFont x)
  else if kk = 0x33#8 then some (.bcd x)
  else if kk = 0x55#8 then some (.dump x)
  else if kk = 0x65#8 then some (.load x)
  else none

/-- The instruction a word selects; `none` is the spec's UNRECOGNISED (30_encoding.md R74 to R76). -/
def decodeWord (w : Word) : Option Instr :=
  let a := nibbleA w
  let x := nibbleB w
  let y := nibbleC w
  let d := nibbleD w
  let kk := fieldKK w
  let nnn := fieldNNN w
  if a = 0x0#4 then decode0 nnn
  else if a = 0x1#4 then some (.jp nnn)
  else if a = 0x2#4 then some (.call nnn)
  else if a = 0x3#4 then some (.seByte x kk)
  else if a = 0x4#4 then some (.sneByte x kk)
  else if a = 0x5#4 then (if d = 0x0#4 then some (.seReg x y) else none)
  else if a = 0x6#4 then some (.ldByte x kk)
  else if a = 0x7#4 then some (.addByte x kk)
  else if a = 0x8#4 then decode8 x y d
  else if a = 0x9#4 then (if d = 0x0#4 then some (.sneReg x y) else none)
  else if a = 0xA#4 then some (.ldI nnn)
  else if a = 0xB#4 then some (.jpV0 nnn)
  else if a = 0xC#4 then some (.rnd x kk)
  else if a = 0xD#4 then some (.drw x y d)
  else if a = 0xE#4 then decodeE x kk
  else decodeF x kk

/-- Why a byte sequence gives no instruction. -/
inductive DecodeReject where
  /-- No row of the opcode table matches the word; it executes as a no-op that advances (30_encoding.md R76). -/
  | unrecognised (w : Word)
  /-- Fewer than the two bytes of an instruction (30_encoding.md R70). -/
  | tooShort
  deriving DecidableEq, Repr

/-- The word of two bytes, the one at the lower address first (big-endian, 20_memory.md R52). -/
def wordOfBytes (hi lo : Byte) : Word := hi ++ lo

/-- The byte of a word that lies at the lower address (20_memory.md R52). -/
def highByte (w : Word) : Byte := w.extractLsb' 8 8

/-- The byte of a word that lies at the higher address (20_memory.md R52). -/
def lowByte (w : Word) : Byte := w.extractLsb' 0 8

/-- The decoder on bytes: total, rejecting by name, and giving back the bytes after the instruction. -/
def decode (bytes : List Byte) : Except DecodeReject (Instr × List Byte) :=
  match bytes with
  | hi :: lo :: rest =>
    match decodeWord (wordOfBytes hi lo) with
    | some i => .ok (i, rest)
    | none => .error (.unrecognised (wordOfBytes hi lo))
  | _ => .error .tooShort

/-- The instruction read from table bits `w` (bit 0 the least significant of the first word): the first word is laid out
high byte first and given to `decode`. Every instruction is one 16-bit word, so bits above 16 belong to no instruction. -/
def decodeTableWord (nbits w : Nat) : Option Instr :=
  let word : Word := BitVec.ofNat 16 (w % 2 ^ nbits)
  match decode [highByte word, lowByte word] with
  | .ok (i, _) => some i
  | .error _ => none

/-- The word of an instruction (30_encoding.md R72, R74). -/
def encode (i : Instr) : Word :=
  match i with
  | .cls => 0x00E0#16
  | .ret => 0x00EE#16
  | .jp nnn => 0x1#4 ++ nnn
  | .call nnn => 0x2#4 ++ nnn
  | .seByte x kk => 0x3#4 ++ x ++ kk
  | .sneByte x kk => 0x4#4 ++ x ++ kk
  | .seReg x y => 0x5#4 ++ x ++ y ++ 0x0#4
  | .ldByte x kk => 0x6#4 ++ x ++ kk
  | .addByte x kk => 0x7#4 ++ x ++ kk
  | .ldReg x y => 0x8#4 ++ x ++ y ++ 0x0#4
  | .orReg x y => 0x8#4 ++ x ++ y ++ 0x1#4
  | .andReg x y => 0x8#4 ++ x ++ y ++ 0x2#4
  | .xorReg x y => 0x8#4 ++ x ++ y ++ 0x3#4
  | .addReg x y => 0x8#4 ++ x ++ y ++ 0x4#4
  | .subReg x y => 0x8#4 ++ x ++ y ++ 0x5#4
  | .shr x y => 0x8#4 ++ x ++ y ++ 0x6#4
  | .subnReg x y => 0x8#4 ++ x ++ y ++ 0x7#4
  | .shl x y => 0x8#4 ++ x ++ y ++ 0xE#4
  | .sneReg x y => 0x9#4 ++ x ++ y ++ 0x0#4
  | .ldI nnn => 0xA#4 ++ nnn
  | .jpV0 nnn => 0xB#4 ++ nnn
  | .rnd x kk => 0xC#4 ++ x ++ kk
  | .drw x y n => 0xD#4 ++ x ++ y ++ n
  | .skp x => 0xE#4 ++ x ++ 0x9E#8
  | .sknp x => 0xE#4 ++ x ++ 0xA1#8
  | .ldFromDT x => 0xF#4 ++ x ++ 0x07#8
  | .waitKey x => 0xF#4 ++ x ++ 0x0A#8
  | .ldToDT x => 0xF#4 ++ x ++ 0x15#8
  | .ldToST x => 0xF#4 ++ x ++ 0x18#8
  | .addI x => 0xF#4 ++ x ++ 0x1E#8
  | .ldFont x => 0xF#4 ++ x ++ 0x29#8
  | .bcd x => 0xF#4 ++ x ++ 0x33#8
  | .dump x => 0xF#4 ++ x ++ 0x55#8
  | .load x => 0xF#4 ++ x ++ 0x65#8

/-- The bytes of an instruction in memory order (20_memory.md R52). -/
def encodeBytes (i : Instr) : List Byte := [highByte (encode i), lowByte (encode i)]

/-- A row of the opcode table: mask and match (30_encoding.md R74). -/
structure OpcodeRow where
  mask : Word
  pattern : Word
  deriving DecidableEq, Repr

/-- The mask and match columns of the table's row an instruction belongs to (30_encoding.md R74). -/
def Instr.row (i : Instr) : OpcodeRow :=
  match i with
  | .cls => ⟨0xFFFF, 0x00E0⟩
  | .ret => ⟨0xFFFF, 0x00EE⟩
  | .jp _ => ⟨0xF000, 0x1000⟩
  | .call _ => ⟨0xF000, 0x2000⟩
  | .seByte _ _ => ⟨0xF000, 0x3000⟩
  | .sneByte _ _ => ⟨0xF000, 0x4000⟩
  | .seReg _ _ => ⟨0xF00F, 0x5000⟩
  | .ldByte _ _ => ⟨0xF000, 0x6000⟩
  | .addByte _ _ => ⟨0xF000, 0x7000⟩
  | .ldReg _ _ => ⟨0xF00F, 0x8000⟩
  | .orReg _ _ => ⟨0xF00F, 0x8001⟩
  | .andReg _ _ => ⟨0xF00F, 0x8002⟩
  | .xorReg _ _ => ⟨0xF00F, 0x8003⟩
  | .addReg _ _ => ⟨0xF00F, 0x8004⟩
  | .subReg _ _ => ⟨0xF00F, 0x8005⟩
  | .shr _ _ => ⟨0xF00F, 0x8006⟩
  | .subnReg _ _ => ⟨0xF00F, 0x8007⟩
  | .shl _ _ => ⟨0xF00F, 0x800E⟩
  | .sneReg _ _ => ⟨0xF00F, 0x9000⟩
  | .ldI _ => ⟨0xF000, 0xA000⟩
  | .jpV0 _ => ⟨0xF000, 0xB000⟩
  | .rnd _ _ => ⟨0xF000, 0xC000⟩
  | .drw _ _ _ => ⟨0xF000, 0xD000⟩
  | .skp _ => ⟨0xF0FF, 0xE09E⟩
  | .sknp _ => ⟨0xF0FF, 0xE0A1⟩
  | .ldFromDT _ => ⟨0xF0FF, 0xF007⟩
  | .waitKey _ => ⟨0xF0FF, 0xF00A⟩
  | .ldToDT _ => ⟨0xF0FF, 0xF015⟩
  | .ldToST _ => ⟨0xF0FF, 0xF018⟩
  | .addI _ => ⟨0xF0FF, 0xF01E⟩
  | .ldFont _ => ⟨0xF0FF, 0xF029⟩
  | .bcd _ => ⟨0xF0FF, 0xF033⟩
  | .dump _ => ⟨0xF0FF, 0xF055⟩
  | .load _ => ⟨0xF0FF, 0xF065⟩

/-- One instruction of each row, in the table's order: the table is the list of their rows. -/
def oneOfEachRow : List Instr :=
  [.cls, .ret, .jp 0, .call 0, .seByte 0 0, .sneByte 0 0, .seReg 0 0, .ldByte 0 0, .addByte 0 0] ++
  [.ldReg 0 0, .orReg 0 0, .andReg 0 0, .xorReg 0 0, .addReg 0 0, .subReg 0 0, .shr 0 0, .subnReg 0 0] ++
  [.shl 0 0, .sneReg 0 0, .ldI 0, .jpV0 0, .rnd 0 0, .drw 0 0 0, .skp 0, .sknp 0, .ldFromDT 0] ++
  [.waitKey 0, .ldToDT 0, .ldToST 0, .addI 0, .ldFont 0, .bcd 0, .dump 0, .load 0]

/-- The 34 rows of the opcode table (30_encoding.md R74). -/
def opcodeRows : List OpcodeRow := oneOfEachRow.map Instr.row

/-- `w` selects the row: `(w AND mask) = match` (30_encoding.md R74). -/
def OpcodeRow.selects (r : OpcodeRow) (w : Word) : Bool := w &&& r.mask = r.pattern

end Sys2Proof
end

