-- ==== Sys2Proof/Machine/HostOps.lean ====
section
/-! DEFINITION. The host's operations TICK and LOAD (RESET stands in Ops), the parts of STEP that are not an instruction,
and the outputs. -/

namespace Sys2Proof.Machine

/-- One saturating count-down (60_exceptions.md R167). -/
def countDown (t : Byte) : Byte := if t = 0#8 then 0#8 else t - 1#8

/-- TICK (60_exceptions.md R167): nothing on a faulted core, nothing during a key-wait. -/
def opTick (s : State) : State :=
  if s.faulted then s
  else if s.waiting then s
  else { s with dt := countDown s.dt, st := countDown s.st }

/-- `n` count-downs at once. -/
def countDownBy (n : Nat) (t : Byte) : Byte := if t = 0#8 then 0#8 else BitVec.ofNat 8 (t.toNat - n)

/-- `n` TICKs one after the other, in closed form, so that it can be evaluated in every field where `n` is a free value
(`opTicks_succ` in Laws/HostOps.lean proves it is TICK repeated). -/
def opTicks (n : Nat) (s : State) : State :=
  { s with
    dt := if s.faulted || s.waiting then s.dt else countDownBy n s.dt
    st := if s.faulted || s.waiting then s.st else countDownBy n s.st }

/-- LOAD (20_memory.md R60): the bytes go to 0x200 upward, those beyond the memory are dropped, nothing else changes; on a
faulted core nothing happens. -/
def opLoad (bytes : List Byte) (s : State) : State :=
  if s.faulted then s
  else s.setMem (s.mem.writeBytes Config.progBase (bytes.take Config.progMax))

/-- Phase 1 of STEP (40_step_cycle.md R91), with the arguments sampled once (R99). -/
def State.begin (s : State) (keys : BitVec 16) (rnd : Byte) : State :=
  { s with dirty := false, keys := keys, rnd := rnd }

/-- Phase 2 of STEP (40_step_cycle.md R92): the lowest pressed key goes to `V[wait_reg]` and the wait ends; with no key
pressed nothing changes. -/
def deliverKey (s : State) : State :=
  match lowestKey s.keys with
  | none => s
  | some k => (s.setV s.waitReg k).setWait false s.waitReg

/-- Fetch (40_step_cycle.md R93): `none` when `pc > 0xFFE`, checked before either byte is read; else the big-endian word
at `pc`, odd or even (20_memory.md R52, R54). -/
def fetch (s : State) : Option Word :=
  if 0xFFE < s.pc.toNat then none
  else some (wordOfBytes (s.mem.read s.pc.toNat) (s.mem.read (s.pc.toNat + 1)))

/-- UNRECOGNISED, every word no row matches (40_step_cycle.md R95): a no-op that advances. -/
def execUnrecognised (s : State) : Result := .next s.advance

/-- What a STEP returns (10_state.md R35, 40_step_cycle.md R97). -/
structure Snapshot where
  soundOn : Bool
  pixels : Canvas
  pixelsChanged : Bool
  deriving DecidableEq, Repr

/-- The outputs `sound_on`, `pixels`, `pixels_changed` as functions of the state (10_state.md R35). -/
def State.outputs (s : State) : Snapshot :=
  { soundOn := decide (0 < s.st.toNat), pixels := s.pix, pixelsChanged := s.dirty }

/-- What the STEP that ended in this state returned: a snapshot, or `none` for the spec's NoSnapshot, which is what a STEP
that faults and a STEP on a faulted core return (40_step_cycle.md R97, R98). -/
def State.snapshot (s : State) : Option Snapshot := if s.faulted then none else some s.outputs

/-- The fault port (60_exceptions.md R169): the cause code and the info word, 0 when there is no fault. -/
def State.faultPort (s : State) : Nat × Word :=
  match s.fault with
  | none => (0, 0#16)
  | some f => (f.code, f.info)

end Sys2Proof.Machine
end

