-- ==== Sys2Proof/Machine/Cycle.lean ====
section
/-! DEFINITION. STEP (40_step_cycle.md R90), the four operations as one function, and the STEP of an open schedule. -/

namespace Sys2Proof.Machine

/-- Phase 3 of STEP after a fetch: the instruction the word selects, or the no-op (40_step_cycle.md R94, R95). -/
def execWord (w : Word) (s : State) : Result :=
  match decodeWord w with
  | some i => exec i s
  | none => execUnrecognised s

/-- Phases 2 and 3 of STEP: a key delivery, a fetch fault or one instruction (40_step_cycle.md R90, R92, R93). -/
def cycle (s : State) : Result :=
  if s.waiting then .next (deliverKey s)
  else
    match fetch s with
    | none => raiseFault (.fetchRange s.pc) s
    | some w => execWord w s

/-- STEP(keys, rnd): nothing changes on a faulted core (40_step_cycle.md R90, R98). -/
def opStep (keys : BitVec 16) (rnd : Byte) (s : State) : Result :=
  if s.faulted then .next s else cycle (s.begin keys rnd)

/-- One operation of the host (00_scope.md R7). -/
def perform (op : HostOp) (s : State) : Result :=
  match op with
  | .reset => .next (opReset s)
  | .load bytes => .next (opLoad bytes s)
  | .tick => .next (opTick s)
  | .step keys rnd => opStep keys rnd s

/-- The step of an open schedule: some number of TICKs and then one STEP with free arguments. A run of such steps is a run
of STEPs and TICKs in any order (60_exceptions.md R170; notes/assumptions/2.md and 3.md). -/
def freeStep (s : State) : Result :=
  opStep (Config.freeKeys s.draws) (Config.freeRnd s.draws)
    { opTicks (Config.freeTicks s.draws) s with draws := s.draws + 1 }

/-- The next thing the host does: the first operation of the schedule, or a free STEP where the schedule is open. -/
def hostStep (s : State) : Result :=
  match s.schedule with
  | [] => freeStep s
  | op :: rest => perform op { s with schedule := rest }

/-- Where the next instruction is fetched: `pc`, or the reset vector where `pc` holds an address no fetch can read. -/
def fetchAddress (s : State) : Nat := if 0xFFE < s.pc.toNat then Config.progBase else s.pc.toNat

/-- The schedule as it stands where its next operation is a STEP (or it is open), and an open one else. -/
def scheduleForFetch (ops : List HostOp) : List HostOp :=
  match ops with
  | .step keys rnd :: rest => .step keys rnd :: rest
  | _ => []

/-- Make the next step fetch this word: the two bytes at `pc`, high byte first, no fault latched, no key-wait, a STEP next. -/
def placeWord (s : State) (w : Word) : State :=
  let a := fetchAddress s
  { s with
    mem := s.mem.writeBytes a [highByte w, lowByte w]
    pc := BitVec.ofNat 16 a
    waiting := false
    fault := none
    schedule := scheduleForFetch s.schedule }

end Sys2Proof.Machine
end

