-- ==== Sys2Proof/Machine/Step.lean ====
section
/-! DEFINITION. The step of the model: one operation of the host (notes/assumptions/1.md), and the placing of one
instruction where the next step fetches it. -/

namespace Sys2Proof.Machine

/-- One step: the next operation of the host (00_scope.md R7). -/
def step (s : State) : Host.Outcome State Fault Refusal := hostStep s

/-- `s` with the instruction whose table bits are `w` where the next step fetches (20_memory.md R52). It takes the place of
LOAD, and of the end of a wait, of RESET or of the host's earlier operations where the state needs one. -/
def State.withFetchWord (s : State) (nbits w : Nat) : State := placeWord s (BitVec.ofNat 16 (w % 2 ^ nbits))

end Sys2Proof.Machine
end

