-- ==== Sys2Proof/WellFormed.lean ====
section
/-! DEFINITION. Well-formedness. An instruction has no ill-formed term: its fields have exactly the widths of the encoding
and the spec makes every value of every field legal (30_encoding.md R73: "every value 0 to 15 is legal for both in every
instruction that has them"), so the predicate has no check and says so. A program image has one check, its length. -/

namespace Sys2Proof

/-- Every instruction is well-formed (30_encoding.md R73, R77). -/
def Instr.wellFormed (i : Instr) : Bool :=
  match i with
  | .cls | .ret => true
  | .jp _ | .call _ | .ldI _ | .jpV0 _ => true
  | .seByte _ _ | .sneByte _ _ | .ldByte _ _ | .addByte _ _ | .rnd _ _ => true
  | .seReg _ _ | .sneReg _ _ | .ldReg _ _ | .orReg _ _ | .andReg _ _ | .xorReg _ _ => true
  | .addReg _ _ | .subReg _ _ | .shr _ _ | .subnReg _ _ | .shl _ _ => true
  | .drw _ _ _ => true
  | .skp _ | .sknp _ | .ldFromDT _ | .waitKey _ | .ldToDT _ | .ldToST _ => true
  | .addI _ | .ldFont _ | .bcd _ | .dump _ | .load _ => true

/-- The program images a loader is expected to hand over: at most `PROG_MAX` bytes (70_reset_and_hazards.md R181, R182).
LOAD itself is defined on any length and drops the excess (20_memory.md R60). -/
def programWellFormed (bytes : List Byte) : Bool := bytes.length ≤ Config.progMax

end Sys2Proof
end

