-- ==== Sys2Proof/Safety.lean ====
section
/-! DEFINITION. What claims about the core are stated in: the invariants of 70_reset_and_hazards.md R189, when an instruction
faults (60_exceptions.md R161), what an instruction may write (30_encoding.md R74), the end of a program (R188) and the host's
schedule (60_exceptions.md R170). -/

namespace Sys2Proof.Machine

/-- What every reachable state has (70_reset_and_hazards.md R189, 10_state.md R24): memory in canonical form, `pc` at most
0x10FE, and every stack entry a `pc + 2` of a fetched instruction, so at most 0x1000. (`SP <= 16` and the widths are in the
types.) -/
abbrev State.Inv (s : State) : Prop :=
  s.mem.wf ∧ s.pc.toNat ≤ 0x10FE ∧ ∀ k : Fin 16, (s.stack[k]).toNat ≤ 0x1000

/-- The word two bytes of memory at `pc` make, as a number: `MEM[pc] * 256 + MEM[pc + 1]` (20_memory.md R52). -/
def State.wordAtPc (s : State) : Nat := (s.mem.read s.pc.toNat).toNat * 256 + (s.mem.read (s.pc.toNat + 1)).toNat

/-- The instruction the next fetch finds at `pc`, if `pc` can be fetched from and the word is recognised. -/
def State.instrAtPc (s : State) : Option Instr :=
  if s.pc.toNat ≤ 0xFFE then decodeWord (BitVec.ofNat 16 s.wordAtPc) else none

/-- The fault an instruction raises in a state (60_exceptions.md R161), its conditions written as the table has them. -/
def faultOf (i : Instr) (s : State) : Option Fault :=
  match i with
  | .drw _ _ n => if 1 ≤ n.toNat ∧ s.i.toNat + n.toNat - 1 > 0xFFF then some (.memReadRange s.i) else none
  | .load x => if s.i.toNat + x.toNat > 0xFFF then some (.memReadRange s.i) else none
  | .bcd _ => if s.i.toNat + 2 > 0xFFF then some (.memWriteRange s.i) else none
  | .dump x => if s.i.toNat + x.toNat > 0xFFF then some (.memWriteRange s.i) else none
  | .call _ => if s.sp.val = 16 then some (.stackOverflow s.pc) else none
  | .ret => if s.sp.val = 0 then some (.stackUnderflow s.pc) else none
  | .cls | .jp _ | .seByte _ _ | .sneByte _ _ | .seReg _ _ | .ldByte _ _ | .addByte _ _ | .ldReg _ _ | .orReg _ _
  | .andReg _ _ | .xorReg _ _ | .addReg _ _ | .subReg _ _ | .shr _ _ | .subnReg _ _ | .shl _ _ | .sneReg _ _ | .ldI _
  | .jpV0 _ | .rnd _ _ | .skp _ | .sknp _ | .ldFromDT _ | .waitKey _ | .ldToDT _ | .ldToST _ | .addI _ | .ldFont _ => none

/-- The key `V[x]` names is pressed (45_keypad_timers.md R150, R156). -/
abbrev State.KeyDown (s : State) (x : Nibble) : Prop :=
  (s.getV x).toNat ≤ 15 ∧ s.keys.getLsbD (s.getV x).toNat = true

/-- Where `pc` goes when an instruction runs without a fault: the movement of 40_step_cycle.md R96's table with the target or
condition of the instruction's own rule. -/
def pcAfter (i : Instr) (s : State) : Word :=
  match i with
  | .jp nnn | .call nnn => BitVec.ofNat 16 nnn.toNat
  | .ret => s.stack[s.sp.val - 1]'(by have := s.sp.isLt; omega)
  | .jpV0 nnn => BitVec.ofNat 16 (nnn.toNat + (s.getV 0#4).toNat)
  | .seByte x kk => if s.getV x = kk then s.pc + 4#16 else s.pc + 2#16
  | .sneByte x kk => if s.getV x ≠ kk then s.pc + 4#16 else s.pc + 2#16
  | .seReg x y => if s.getV x = s.getV y then s.pc + 4#16 else s.pc + 2#16
  | .sneReg x y => if s.getV x ≠ s.getV y then s.pc + 4#16 else s.pc + 2#16
  | .skp x => if s.KeyDown x then s.pc + 4#16 else s.pc + 2#16
  | .sknp x => if ¬ s.KeyDown x then s.pc + 4#16 else s.pc + 2#16
  | .cls | .ldByte _ _ | .addByte _ _ | .ldReg _ _ | .orReg _ _ | .andReg _ _ | .xorReg _ _ | .addReg _ _ | .subReg _ _
  | .shr _ _ | .subnReg _ _ | .shl _ _ | .ldI _ | .rnd _ _ | .drw _ _ _ | .ldFromDT _ | .waitKey _ | .ldToDT _
  | .ldToST _ | .addI _ | .ldFont _ | .bcd _ | .dump _ | .load _ => s.pc + 2#16

/-- A latched fault explains itself (60_exceptions.md R162, R163): its info word and `pc` still identify the fetch or the
instruction that raised it, and the condition that raised it still holds. -/
def State.FaultExplained (s : State) : Prop :=
  ∀ f, s.fault = some f →
    (0xFFE < s.pc.toNat ∧ f = .fetchRange s.pc) ∨ ∃ i, s.instrAtPc = some i ∧ faultOf i s = some f

/-- What an instruction may write; what it does not name is unchanged. `pc` may always change. -/
structure Writes where
  /-- The registers it may write. -/
  regs : List Nibble := []
  /-- `I`. -/
  i : Bool := false
  /-- The stack entry it may write. -/
  stackEntry : Option Nat := none
  /-- `SP`. -/
  sp : Bool := false
  dt : Bool := false
  st : Bool := false
  /-- `PIX` and `dirty`. -/
  canvas : Bool := false
  /-- `waiting` and `wait_reg`. -/
  wait : Bool := false
  /-- The bytes it may write: `len` of them from `base`. -/
  base : Nat := 0
  len : Nat := 0
  deriving DecidableEq, Repr

/-- Everything but `pc` and what `w` names is the same in both states, every byte of memory outside the written range among
it, and so are the fault latch and the host's inputs. -/
structure Frame (w : Writes) (s t : State) : Prop where
  regs : ∀ r, r ∉ w.regs → t.getV r = s.getV r
  i : w.i = false → t.i = s.i
  stack : ∀ k : Fin 16, some k.val ≠ w.stackEntry → t.stack[k] = s.stack[k]
  sp : w.sp = false → t.sp = s.sp
  dt : w.dt = false → t.dt = s.dt
  st : w.st = false → t.st = s.st
  canvas : w.canvas = false → t.pix = s.pix ∧ t.dirty = s.dirty
  wait : w.wait = false → t.waiting = s.waiting ∧ t.waitReg = s.waitReg
  mem : ∀ a, ¬ (w.base ≤ a ∧ a < w.base + w.len) → t.mem.read a = s.mem.read a
  fault : t.fault = s.fault
  inputs : t.keys = s.keys ∧ t.rnd = s.rnd ∧ t.schedule = s.schedule ∧ t.draws = s.draws

/-- Some sprite bit 1 of `draw_sprite(x0, y0, sprite)` lies on the pixel at row `yy` and column `xx` (44_display.md R142):
row `r` and column `c` of the sprite, bit `7 - c` of its byte, with both coordinates reduced modulo the canvas. -/
def SpriteCovers (x0 y0 : Byte) (sprite : List Byte) (yy : Fin 32) (xx : Fin 64) : Prop :=
  ∃ r c : Nat, c < 8 ∧ (x0.toNat + c) % 64 = xx.val ∧ (y0.toNat + r) % 32 = yy.val ∧
    ∃ h : r < sprite.length, (sprite[r]).getLsbD (7 - c) = true

/-- The program has ended (70_reset_and_hazards.md R188, the spec's definition): `pc` addresses a 1nnn whose `nnn` is `pc`, and
the core does not wait for a key. -/
def State.ended (s : State) : Bool :=
  !s.waiting && (match s.instrAtPc with | some (.jp nnn) => nnn.toNat == s.pc.toNat | _ => false)

/-- One tick of the host's loop (60_exceptions.md R170): its STEPs, then one TICK. -/
def frameOps (steps : List (BitVec 16 × Byte)) : List HostOp := steps.map (fun a => .step a.1 a.2) ++ [.tick]

/-- The schedule the host is meant to produce (60_exceptions.md R170): RESET, LOAD, then frames of `CPU_STEPS_PER_TICK`
STEPs each (the length of each list of arguments) and a TICK. The core accepts any other. -/
def hostSchedule (program : List Byte) (frames : List (List (BitVec 16 × Byte))) : List HostOp :=
  .reset :: .load program :: frames.flatMap frameOps

end Sys2Proof.Machine
end

