-- ==== Sys2Proof/Certificates/Slice0/Obligations.lean ====
section
/-! DEFINITION. The statements about the core that the provers settle, from the numbered rules of spec/. Each docstring names
the rule, and where a clause rests on one of the spec's own decisions (D<n> of 92_eei_decisions.md) or on an entry of the
assumption log, says so. -/

open Sys2Proof Sys2Proof.Machine

/-! ## Encoding -/

/-- Every instruction (every one is well-formed), at every value of its operands, is what its word, its bytes in memory order
and its table bits decode to (30_encoding.md sections 1 and 2; the rows of 13 patterns are the spec's decision D14). -/
def Obligations.DecodeOfEncodeIsTheInstruction : Prop :=
  ∀ (i : Instr) (rest : List Byte),
    decodeWord (encode i) = some i ∧ decode (encodeBytes i ++ rest) = .ok (i, rest) ∧
      decodeTableWord 16 (encode i).toNat = some i

/-- Where a word is recognised, its instruction's word is that word: no bit of an encoding is dropped, the `y` field of 8xy6
and 8xyE among them (30_encoding.md R71, R77). -/
def Obligations.EncodeOfDecodeIsTheWord : Prop :=
  ∀ (w : Word) (i : Instr), decodeWord w = some i → encode i = w

/-- Decoding is selection in the opcode table by `(w AND mask) = match`: a word decodes to an instruction of a row exactly
when that row selects it, so no word selects two rows (30_encoding.md sections 2 and 3; decisions D14, D28). -/
def Obligations.DecodingIsSelectionInTheTable : Prop :=
  ∀ w : Word,
    (∀ i, decodeWord w = some i → i.row ∈ opcodeRows ∧ w &&& i.row.mask = i.row.pattern) ∧
    (∀ r ∈ opcodeRows, w &&& r.mask = r.pattern → ∃ i, decodeWord w = some i ∧ i.row = r)

/-- The unrecognised words are exactly the six classes of the spec's table of them (30_encoding.md section 3, R76; exact
matching is decision D28). -/
def Obligations.UnrecognisedWordsAreSixClasses : Prop :=
  ∀ w : Word, decodeWord w = none ↔
    (w.toNat / 4096 = 0 ∧ w.toNat % 4096 ≠ 0x0E0 ∧ w.toNat % 4096 ≠ 0x0EE) ∨
    (w.toNat / 4096 = 5 ∧ w.toNat % 16 ≠ 0) ∨
    (w.toNat / 4096 = 8 ∧ w.toNat % 16 ∈ [8, 9, 0xA, 0xB, 0xC, 0xD, 0xF]) ∨
    (w.toNat / 4096 = 9 ∧ w.toNat % 16 ≠ 0) ∨
    (w.toNat / 4096 = 0xE ∧ w.toNat % 256 ∉ [0x9E, 0xA1]) ∨
    (w.toNat / 4096 = 0xF ∧ w.toNat % 256 ∉ [0x07, 0x0A, 0x15, 0x18, 0x1E, 0x29, 0x33, 0x55, 0x65])

/-- A few words of every family, written out from the spec (30_encoding.md R80 and 95_test_vectors.md). -/
def Obligations.SpecWordsDecodeAsWritten : Prop :=
  decodeWord 0x00E0#16 = some .cls ∧ decodeWord 0x00E1#16 = none ∧ decodeWord 0x00EE#16 = some .ret ∧
  decodeWord 0x1234#16 = some (.jp 0x234#12) ∧ decodeWord 0x2210#16 = some (.call 0x210#12) ∧
  decodeWord 0x5120#16 = some (.seReg 1#4 2#4) ∧ decodeWord 0x5121#16 = none ∧
  decodeWord 0x8AB4#16 = some (.addReg 0xA#4 0xB#4) ∧ decodeWord 0x8126#16 = some (.shr 1#4 2#4) ∧
  decodeWord 0x81F6#16 = some (.shr 1#4 0xF#4) ∧ decodeWord 0xA2F0#16 = some (.ldI 0x2F0#12) ∧
  decodeWord 0xD015#16 = some (.drw 0#4 1#4 5#4) ∧ decodeWord 0xE19E#16 = some (.skp 1#4) ∧
  decodeWord 0xF165#16 = some (.load 1#4) ∧ decodeWord 0xF166#16 = none ∧
  decode [0xA2#8, 0xF0#8] = .ok (.ldI 0x2F0#12, [])

/-! ## The step -/

/-- The step is one operation of the host: the first of the schedule, which is RESET, LOAD, TICK or STEP, or, where the
schedule is open, a STEP with free arguments after a free number of TICKs; so what is said of the four operations is said of the
step, on any core, faulted or waiting too. Where the two bytes at `pc` decode to an instruction and the core is neither faulted
nor waiting, that STEP is `exec` of it: all the step adds is phase 1, `dirty` cleared and the arguments sampled
(40_step_cycle.md section 1; the schedule is the model's, notes/assumptions/1.md to 3.md). -/
def Obligations.StepRunsTheDecodedInstruction : Prop :=
  (∀ (s : State) (op : HostOp) (rest : List HostOp), s.schedule = op :: rest →
    step s = perform op { s with schedule := rest }) ∧
  (∀ s : State, s.schedule = [] →
    step s = opStep (Config.freeKeys s.draws) (Config.freeRnd s.draws)
      { opTicks (Config.freeTicks s.draws) s with draws := s.draws + 1 }) ∧
  (∀ s : State,
    perform .reset s = .next (opReset s) ∧ (∀ bytes, perform (.load bytes) s = .next (opLoad bytes s)) ∧
    perform .tick s = .next (opTick s) ∧ (∀ keys rnd, perform (.step keys rnd) s = opStep keys rnd s)) ∧
  (∀ (s : State) (i : Instr), s.fault = none → s.waiting = false → s.instrAtPc = some i →
    (∀ keys rnd rest, s.schedule = .step keys rnd :: rest →
      step s = exec i { s with schedule := rest, dirty := false, keys := keys, rnd := rnd }) ∧
    (s.schedule = [] →
      step s = exec i { opTicks (Config.freeTicks s.draws) s with
        draws := s.draws + 1, dirty := false, keys := Config.freeKeys s.draws, rnd := Config.freeRnd s.draws }))

/-- An unrecognised word leaves everything as it is and moves `pc` by 2 (40_step_cycle.md R95; that this covers `I`, the
stack, the canvas and the wait is the spec's own inference there). -/
def Obligations.UnrecognisedWordOnlyAdvances : Prop :=
  ∀ (s : State) (keys : BitVec 16) (rnd : Byte), s.fault = none → s.waiting = false → s.pc.toNat ≤ 0xFFE →
    decodeWord (BitVec.ofNat 16 s.wordAtPc) = none →
    opStep keys rnd s = .next { s with pc := s.pc + 2#16, dirty := false, keys := keys, rnd := rnd }

/-- A fetch with `pc > 0xFFE` latches FETCH_RANGE with `pc`, which the fault port then shows as code 1, and changes nothing else
of the core but `dirty`, which phase 1 cleared; the step returns no snapshot (40_step_cycle.md section 1; decision D3; the port
is decision D1). -/
def Obligations.FetchOutsideMemoryFaults : Prop :=
  ∀ (s : State) (keys : BitVec 16) (rnd : Byte), s.fault = none → s.waiting = false → 0xFFE < s.pc.toNat →
    ∃ t, opStep keys rnd s = .next t ∧ t.snapshot = none ∧ t.faultPort = (1, s.pc) ∧
      t = { s with fault := some (.fetchRange s.pc), dirty := false, keys := keys, rnd := rnd }

/-- On a faulted core STEP, TICK and LOAD change nothing and no snapshot is returned; RESET clears the fault (60_exceptions.md
section 1; decision D13). -/
def Obligations.FaultedCoreStandsStill : Prop :=
  ∀ s : State, s.fault ≠ none →
    (∀ keys rnd, opStep keys rnd s = .next s) ∧ opTick s = s ∧ (∀ n, opTicks n s = s) ∧ (∀ bytes, opLoad bytes s = s) ∧
    s.snapshot = none ∧ (opReset s).fault = none

/-- A STEP on a waiting core with a key pressed puts the lowest pressed code into `V[wait_reg]`, ends the wait, and runs no
instruction; with no key pressed nothing changes but `dirty` (40_step_cycle.md R92; that the delivering step executes nothing
is decision D27). -/
def Obligations.WaitingStepDeliversTheLowestKey : Prop :=
  ∀ (s : State) (keys : BitVec 16) (rnd : Byte), s.fault = none → s.waiting = true →
    (keys = 0#16 → opStep keys rnd s = .next { s with dirty := false, keys := keys, rnd := rnd }) ∧
    (∀ k, k < 16 → keys.getLsbD k = true → (∀ j, j < k → keys.getLsbD j = false) →
      ∃ t, opStep keys rnd s = .next t ∧ t.getV s.waitReg = BitVec.ofNat 8 k ∧ t.waiting = false ∧ t.pc = s.pc ∧
        t.dirty = false ∧ Frame { regs := [s.waitReg], wait := true, canvas := true } { s with keys := keys, rnd := rnd } t ∧
        t.pix = s.pix ∧ t.waitReg = s.waitReg)

/-- After a STEP the dirty flag says exactly whether the step's instruction was a 00E0 or Dxyn that changed a pixel: it is
false after a waiting step, after any other instruction and after one that left every pixel as it was; where it is false the
grid is as before, so clearing it touched no pixel (40_step_cycle.md R91). -/
def Obligations.PixelsChangedIsExact : Prop :=
  ∀ (s t : State) (keys : BitVec 16) (rnd : Byte), s.fault = none → opStep keys rnd s = .next t →
    (t.dirty = true ↔
      s.waiting = false ∧ (s.instrAtPc = some .cls ∨ ∃ x y n, s.instrAtPc = some (.drw x y n)) ∧
        ∃ yy xx, pixelAt t.pix yy xx ≠ pixelAt s.pix yy xx) ∧
    (t.dirty = false → t.pix = s.pix)

/-- The snapshot of a STEP that did not fault: the sound timer's audible state, the grid and the dirty flag, all after the
step's instruction (40_step_cycle.md R97). -/
def Obligations.SnapshotShowsTheStateAfterTheStep : Prop :=
  ∀ (s t : State) (keys : BitVec 16) (rnd : Byte), opStep keys rnd s = .next t → t.fault = none →
    ∃ snap, t.snapshot = some snap ∧ (snap.soundOn = true ↔ 0 < t.st.toNat) ∧
      (∀ yy xx, pixelAt snap.pixels yy xx = pixelAt t.pix yy xx) ∧ snap.pixelsChanged = t.dirty

/-- TICK counts both timers down by one, never below zero, and changes nothing else; it does nothing during a key-wait, nor on
a faulted core (60_exceptions.md R167; the last is decision D13). -/
def Obligations.TickCountsDownSaturating : Prop :=
  ∀ s : State,
    (s.fault = none → s.waiting = false →
      opTick s = { s with dt := BitVec.ofNat 8 (s.dt.toNat - 1), st := BitVec.ofNat 8 (s.st.toNat - 1) }) ∧
    (s.waiting = true → opTick s = s) ∧ (s.fault ≠ none → opTick s = s)

/-- The free number of TICKs of an open schedule is TICK repeated (notes/assumptions/3.md; 60_exceptions.md R170). -/
def Obligations.FreeTicksAreTicksRepeated : Prop :=
  ∀ (n : Nat) (s : State), opTicks n s = opTick^[n] s

/-- LOAD puts the bytes at 0x200 upward, drops those past 0xFFF, and leaves the rest of memory and of the state alone
(20_memory.md R60; that it is defined at any time on a non-faulted core is decision D22). -/
def Obligations.LoadFillsTheProgramArea : Prop :=
  ∀ (s : State) (bytes : List Byte), s.fault = none →
    (∀ k, (h : k < bytes.length) → 0x200 + k ≤ 0xFFF → (opLoad bytes s).mem.read (0x200 + k) = bytes[k]) ∧
    (∀ a, (a < 0x200 ∨ 0x200 + bytes.length ≤ a ∨ 0xFFF < a) → (opLoad bytes s).mem.read a = s.mem.read a) ∧
    opLoad bytes s = { s with mem := (opLoad bytes s).mem }

/-- RESET from any state, faulted or not, gives the reset state; only what the host still has to do and the count of its free
values stay, which are the model's fields (70_reset_and_hazards.md R180; notes/assumptions/5.md). -/
def Obligations.ResetFromAnyStateIsTheResetState : Prop :=
  ∀ s : State,
    (∀ a, a < 80 → (opReset s).mem.read a = Config.font a) ∧ (∀ a, 80 ≤ a → (opReset s).mem.read a = 0#8) ∧
    opReset s = { State.reset with schedule := s.schedule, draws := s.draws }

/-- The value every field of the spec has in the reset state, and the snapshot it shows (10_state.md R33; those of `I`, `SP`,
`waiting`, `wait_reg`, `dirty` and `fault` are decision D17, the glyph bytes are the parameter FONT of decision D16). -/
def Obligations.ResetStateValues : Prop :=
  let s := State.reset
  (∀ a, a < 80 → s.mem.read a = Config.font a) ∧ (∀ a, 80 ≤ a → s.mem.read a = 0#8) ∧
  (∀ r, s.getV r = 0#8) ∧ s.i = 0#16 ∧ s.pc = 0x200#16 ∧ (∀ k : Fin 16, s.stack[k] = 0#16) ∧ s.sp.val = 0 ∧
  s.dt = 0#8 ∧ s.st = 0#8 ∧ (∀ yy xx, pixelAt s.pix yy xx = false) ∧ s.dirty = false ∧ s.waiting = false ∧
  s.waitReg = 0#4 ∧ s.fault = none ∧ s.snapshot = some { soundOn := false, pixels := blankCanvas, pixelsChanged := false }

/-- The boot of the host (70_reset_and_hazards.md R181, R182, 60_exceptions.md R170): from any state, faulted or not, RESET and
LOAD of at most 3584 bytes leave the program at 0x200, `pc` there and no fault. That the host's operations are the field
`schedule` and that RESET leaves the frames in it still to come are the model's choices (DESIGN CHOICE, notes/assumptions/1.md
and 5.md). -/
def Obligations.BootLoadsTheProgram : Prop :=
  ∀ (s : State) (bytes : List Byte) (frames : List (List (BitVec 16 × Byte))), programWellFormed bytes = true →
    s.schedule = hostSchedule bytes frames →
    ∃ t u, step s = .next t ∧ step t = .next u ∧ u.pc = 0x200#16 ∧ u.fault = none ∧ u.waiting = false ∧
      (∀ k, (h : k < bytes.length) → u.mem.read (0x200 + k) = bytes[k]) ∧ u.schedule = frames.flatMap frameOps

/-! ## Invariants and rules over every step -/

/-- The reset state has both invariants. The bounds on `pc` and the stack entries are inferences of the spec
(70_reset_and_hazards.md R189, 10_state.md R24), that a fault explains itself rests on decision D13, and the canonical form of
memory is the model's (DESIGN CHOICE, notes/assumptions/7.md). -/
def Obligations.ResetMeetsTheInvariants : Prop := State.reset.Inv ∧ State.reset.FaultExplained

/-- Every step, whatever operation of the host it is, keeps the invariant: memory stays in canonical form below 4096, `pc`
stays at most 0x10FE, every stack entry at most 0x1000 (70_reset_and_hazards.md R189, 10_state.md R24, both inferences of the
spec; the canonical form is the model's, notes/assumptions/7.md). -/
def Obligations.StepKeepsTheInvariant : Prop :=
  ∀ s t : State, s.Inv → step s = .next t → t.Inv

/-- Every step keeps a latched fault explained: faults are precise, so `pc` and the info word go on identifying the fetch or
the instruction that faulted (60_exceptions.md section 1; decision D13). -/
def Obligations.StepKeepsFaultsExplained : Prop :=
  ∀ s t : State, s.FaultExplained → step s = .next t → t.FaultExplained

/-- Every step answers a next state: no instruction word, no operation of the host and no state stops the model; a faulted
core stands still instead (30_encoding.md R76, 60_exceptions.md R174; that faults are next states is
notes/assumptions/8.md). -/
def Obligations.EveryStepAnswersANextState : Prop :=
  ∀ s : State, ∃ t, step s = .next t

/-- The key-wait begins only by a STEP on a core with no fault that executes an Fx0A, whose `x` is then the waiting register,
and ends only by a STEP that sees a key or by RESET (10_state.md R29, 60_exceptions.md R172). -/
def Obligations.KeyWaitBeginsAndEndsAsStated : Prop :=
  ∀ (op : HostOp) (s t : State), perform op s = .next t →
    (s.waiting = false → t.waiting = true →
      ∃ keys rnd x, op = .step keys rnd ∧ s.fault = none ∧ s.instrAtPc = some (.waitKey x) ∧ t.waitReg = x) ∧
    (s.waiting = true → t.waiting = false → op = .reset ∨ ∃ keys rnd, op = .step keys rnd ∧ keys ≠ 0#16)

/-- During a key-wait the timers stand still under every operation but RESET (TICK tests `waiting` as it is when invoked), so
`sound_on` cannot turn false (60_exceptions.md R168). -/
def Obligations.KeyWaitFreezesTheTimers : Prop :=
  ∀ (op : HostOp) (s t : State), s.waiting = true → op ≠ .reset → perform op s = .next t →
    t.dt = s.dt ∧ t.st = s.st ∧ t.outputs.soundOn = s.outputs.soundOn ∧ opTick s = s

/-- A STEP changes a timer only by executing Fx15 or Fx18 (on a core that neither has a fault latched nor waits), which write
`V[x]`: no STEP counts a timer down (10_state.md R26; the two patterns are decision D14). -/
def Obligations.StepWritesTimersOnlyByTheirInstructions : Prop :=
  ∀ (s t : State) (keys : BitVec 16) (rnd : Byte), opStep keys rnd s = .next t →
    (t.dt ≠ s.dt → s.fault = none ∧ s.waiting = false ∧ ∃ x, s.instrAtPc = some (.ldToDT x) ∧ t.dt = s.getV x) ∧
    (t.st ≠ s.st → s.fault = none ∧ s.waiting = false ∧ ∃ x, s.instrAtPc = some (.ldToST x) ∧ t.st = s.getV x)

/-- Nothing but 00E0 and Dxyn (and RESET) touches the canvas (TICK, LOAD, a waiting STEP and an unrecognised word do not), and
nothing else of the state depends on it but VF after Dxyn: two runs of an instruction from states that differ in the canvas
alone agree on everything but the canvas, and after Dxyn on everything but the canvas and VF (44_display.md R146). -/
def Obligations.CanvasFeedsBackOnlyThroughVF : Prop :=
  (∀ s : State, (opTick s).pix = s.pix ∧ (∀ bytes, (opLoad bytes s).pix = s.pix) ∧
    ∀ keys rnd t, s.waiting = true ∨ s.instrAtPc = none → opStep keys rnd s = .next t → t.pix = s.pix) ∧
  ∀ (i : Instr) (s : State) (p : Canvas) (d : Bool),
    ∃ t t', exec i s = .next t ∧ exec i { s with pix := p, dirty := d } = .next t' ∧
      (t.pix ≠ s.pix ∨ t.dirty ≠ s.dirty → i = .cls ∨ ∃ x y n, i = .drw x y n) ∧
      ((∀ x y n, i ≠ .drw x y n) → t' = { t with pix := t'.pix, dirty := t'.dirty }) ∧
      (∀ x y n, i = .drw x y n → (∀ r, r ≠ regF → t'.getV r = t.getV r) ∧
        t' = { t with pix := t'.pix, dirty := t'.dirty, v := t'.v })

/-- The stack is its own array: only 2nnn writes an entry, only 2nnn and 00EE move SP, and those two neither read nor write
memory and raise no memory fault; every other instruction does the same whatever the stack holds, so no program reads a return
address (20_memory.md R65). -/
def Obligations.StackIsNotMemory : Prop :=
  ∀ (i : Instr) (s t : State), exec i s = .next t →
    (t.stack ≠ s.stack → ∃ nnn, i = .call nnn) ∧ (t.sp ≠ s.sp → i = .ret ∨ ∃ nnn, i = .call nnn) ∧
    (i = .ret ∨ (∃ nnn, i = .call nnn) →
      t.mem = s.mem ∧ (∀ m, exec i { s with mem := m } = .next { t with mem := m }) ∧
      (t.fault = s.fault ∨ t.fault = some (.stackOverflow s.pc) ∨ t.fault = some (.stackUnderflow s.pc))) ∧
    (i ≠ .ret → (∀ nnn, i ≠ .call nnn) → ∀ entries n,
      exec i { s with stack := entries, sp := n } = .next { t with stack := entries, sp := n })

/-- `pc` moves exactly once per executed instruction, as the spec's table of movements and the instruction's own rule say; it
does not move when a fault is raised nor in a step spent waiting; an unrecognised word advances (40_step_cycle.md R96; the
bindings, Bnnn's target and the skip conditions are decisions D14, D12, D15). -/
def Obligations.PcMovesExactlyOnce : Prop :=
  (∀ (i : Instr) (s t : State), exec i s = .next t →
    t.pc = match faultOf i s with | some _ => s.pc | none => pcAfter i s) ∧
  (∀ (s t : State) (keys : BitVec 16) (rnd : Byte), s.fault = none → opStep keys rnd s = .next t →
    (s.waiting = true → t.pc = s.pc) ∧
    (s.waiting = false → s.instrAtPc = none → t.pc = if 0xFFE < s.pc.toNat then s.pc else s.pc + 2#16))

/-- Where the spec's table of causes says an instruction faults it latches that cause with that info word and does nothing
else; everywhere else it answers a next state and the latch is as before. The fault port shows the cause's code and the info word
of a latched fault, and 0 where there is none (60_exceptions.md sections 1 and 5, R161, R169; decisions D2, D3, D6, D7, D13, and
D1 for the port). -/
def Obligations.FaultTableIsExact : Prop :=
  (∀ (i : Instr) (s : State),
    (∀ f, faultOf i s = some f → exec i s = .next { s with fault := some f }) ∧
    (faultOf i s = none → ∃ t, exec i s = .next t ∧ t.fault = s.fault)) ∧
  ∀ s : State,
    (s.fault = none → s.faultPort = (0, 0#16)) ∧
    ∀ info : Word,
      (s.fault = some (.fetchRange info) → s.faultPort = (1, info)) ∧
      (s.fault = some (.memReadRange info) → s.faultPort = (2, info)) ∧
      (s.fault = some (.memWriteRange info) → s.faultPort = (3, info)) ∧
      (s.fault = some (.stackOverflow info) → s.faultPort = (4, info)) ∧
      (s.fault = some (.stackUnderflow info) → s.faultPort = (5, info))

/-- Fetch is big-endian: the word's high byte is the byte at `pc`, its low byte the one at `pc + 1`, at any `pc` a fetch can
read from, odd or even; so a word stored high byte first is the next one fetched and decoded (20_memory.md R52). -/
def Obligations.FetchIsBigEndian : Prop :=
  ∀ s : State, s.pc.toNat ≤ 0xFFE →
    (∃ w, fetch s = some w ∧ w.extractLsb' 8 8 = s.mem.read s.pc.toNat ∧ w.extractLsb' 0 8 = s.mem.read (s.pc.toNat + 1)) ∧
    ∀ w : Word,
      let t := { s with mem := (s.mem.write s.pc.toNat (w.extractLsb' 8 8)).write (s.pc.toNat + 1) (w.extractLsb' 0 8) }
      fetch t = some w ∧ t.instrAtPc = decodeWord w

/-- Once the program has ended, every STEP leaves the state as it is but for `dirty`, which stays false
(70_reset_and_hazards.md R188; the definition of the end is decision D30). -/
def Obligations.EndedProgramStaysEnded : Prop :=
  ∀ (s : State) (keys : BitVec 16) (rnd : Byte), s.fault = none → s.ended = true →
    ∃ t, opStep keys rnd s = .next t ∧ t = { s with dirty := false, keys := keys, rnd := rnd } ∧ t.ended = true

/-! ## Frames: what an instruction leaves unchanged -/

/-- The instructions that write registers and nothing else: 6xkk, 7xkk, 8xy0 to 8xy3, Cxkk and Fx07 write `V[x]`; 8xy4 to 8xy7
and 8xyE write `V[x]` and VF (30_encoding.md section 2, 10_state.md R22). -/
def Obligations.RegisterInstructionsFrame : Prop :=
  ∀ (x y : Nibble) (kk : Byte) (s t : State),
    (∀ i ∈ [Instr.ldByte x kk, .addByte x kk, .ldReg x y, .orReg x y, .andReg x y, .xorReg x y, .rnd x kk, .ldFromDT x],
      exec i s = .next t → Frame { regs := [x] } s t) ∧
    (∀ i ∈ [Instr.addReg x y, .subReg x y, .shr x y, .subnReg x y, .shl x y],
      exec i s = .next t → Frame { regs := [x, regF] } s t)

/-- Where they do not fault, 2nnn changes `STACK[SP]`, SP and `pc`, and 00EE changes SP and `pc`; the popped entry stays
(30_encoding.md section 2, 10_state.md R25). -/
def Obligations.CallAndReturnFrame : Prop :=
  ∀ (nnn : Addr) (s t : State),
    (faultOf (.call nnn) s = none → exec (.call nnn) s = .next t → Frame { stackEntry := some s.sp.val, sp := true } s t) ∧
    (faultOf .ret s = none → exec .ret s = .next t → Frame { sp := true } s t)

/-- Jumps and skips change `pc` alone; Annn, Fx1E and Fx29 change `I`, Fx15 DT, Fx18 ST and Fx0A the wait, each with `pc`. VF
and memory are not among what any of them changes (30_encoding.md section 2). -/
def Obligations.JumpSkipIndexTimerAndWaitFrame : Prop :=
  ∀ (x y : Nibble) (kk : Byte) (nnn : Addr) (s t : State),
    (∀ i ∈ [Instr.jp nnn, .jpV0 nnn, .seByte x kk, .sneByte x kk, .seReg x y, .sneReg x y, .skp x, .sknp x],
      exec i s = .next t → Frame {} s t) ∧
    (∀ i ∈ [Instr.ldI nnn, .addI x, .ldFont x], exec i s = .next t → Frame { i := true } s t) ∧
    (exec (.ldToDT x) s = .next t → Frame { dt := true } s t) ∧
    (exec (.ldToST x) s = .next t → Frame { st := true } s t) ∧
    (exec (.waitKey x) s = .next t → Frame { wait := true } s t)

/-- Where they do not fault, Fx33 changes the three bytes from `I` and Fx55 the `x + 1` bytes from `I`, no other byte of
memory, no register and not `I`; Fx65 changes the registers V0 to Vx and no byte of memory (30_encoding.md section 2,
43_index_memory.md R136). -/
def Obligations.MemoryInstructionsFrame : Prop :=
  ∀ (x : Nibble) (s t : State),
    (faultOf (.bcd x) s = none → exec (.bcd x) s = .next t → Frame { base := s.i.toNat, len := 3 } s t) ∧
    (faultOf (.dump x) s = none → exec (.dump x) s = .next t → Frame { base := s.i.toNat, len := x.toNat + 1 } s t) ∧
    (faultOf (.load x) s = none → exec (.load x) s = .next t →
      Frame { regs := (List.range (x.toNat + 1)).map (BitVec.ofNat 4) } s t)

/-- 00E0 changes the canvas and `dirty`; where it does not fault, Dxyn changes the canvas, `dirty` and VF (30_encoding.md
section 2). -/
def Obligations.DisplayInstructionsFrame : Prop :=
  ∀ (x y n : Nibble) (s t : State),
    (exec .cls s = .next t → Frame { canvas := true } s t) ∧
    (faultOf (.drw x y n) s = none → exec (.drw x y n) s = .next t → Frame { canvas := true, regs := [regF] } s t)

/-! ## What each instruction does -/

/-- 1nnn sets `pc` to `nnn` and Bnnn to `nnn + V[0]`, and nothing else changes (41_control_flow.md; the bindings are decisions
D14 and D12: V0, unmasked). -/
def Obligations.JumpsSetPc : Prop :=
  ∀ (nnn : Addr) (s : State),
    exec (.jp nnn) s = .next { s with pc := BitVec.ofNat 16 nnn.toNat } ∧
    exec (.jpV0 nnn) s = .next { s with pc := BitVec.ofNat 16 (nnn.toNat + (s.getV 0#4).toNat) }

/-- 2nnn with a free entry pushes `pc + 2`, raises SP and jumps; with sixteen in use it latches STACK_OVERFLOW and nothing
else (41_control_flow.md R102; the fault is decision D6). -/
def Obligations.CallPushesTheNextAddress : Prop :=
  ∀ (nnn : Addr) (s : State),
    (∀ room : s.sp.val < 16, ∃ t, exec (.call nnn) s = .next t ∧ t.stack[s.sp.val] = s.pc + 2#16 ∧
      t.sp.val = s.sp.val + 1 ∧ t.pc = BitVec.ofNat 16 nnn.toNat) ∧
    (s.sp.val = 16 → exec (.call nnn) s = .next { s with fault := some (.stackOverflow s.pc) })

/-- 00EE with an entry in use lowers SP and jumps to the entry it then indexes, which stays; with none it latches
STACK_UNDERFLOW and nothing else (41_control_flow.md R103; the fault is decision D7). -/
def Obligations.ReturnPopsTheTop : Prop :=
  ∀ s : State,
    (∀ used : 0 < s.sp.val, ∃ t, exec .ret s = .next t ∧ t.sp.val = s.sp.val - 1 ∧
      t.pc = s.stack[s.sp.val - 1]'(by have := s.sp.isLt; omega) ∧ t.stack = s.stack) ∧
    (s.sp.val = 0 → exec .ret s = .next { s with fault := some (.stackUnderflow s.pc) })

/-- A call and then a return come back to the address after the call with the stack as deep as before, whatever the code
between did to everything but the stack (41_control_flow.md R103). -/
def Obligations.CallThenReturnComesBack : Prop :=
  ∀ (nnn : Addr) (s u : State), s.sp.val < 16 →
    ∃ t, exec (.call nnn) s = .next t ∧
      (u.stack = t.stack → u.sp = t.sp → ∃ w, exec .ret u = .next w ∧ w.pc = s.pc + 2#16 ∧ w.sp = s.sp)

/-- The four register skips move `pc` by 4 where their condition holds and by 2 where it does not, and change nothing else
(41_control_flow.md section 3; the conditions are decision D15). -/
def Obligations.RegisterSkips : Prop :=
  ∀ (x y : Nibble) (kk : Byte) (s : State),
    exec (.seByte x kk) s = .next { s with pc := if s.getV x = kk then s.pc + 4#16 else s.pc + 2#16 } ∧
    exec (.sneByte x kk) s = .next { s with pc := if s.getV x = kk then s.pc + 2#16 else s.pc + 4#16 } ∧
    exec (.seReg x y) s = .next { s with pc := if s.getV x = s.getV y then s.pc + 4#16 else s.pc + 2#16 } ∧
    exec (.sneReg x y) s = .next { s with pc := if s.getV x = s.getV y then s.pc + 2#16 else s.pc + 4#16 }

/-- The two key skips on the `keys` of the STEP under way; a code above 15 is never pressed (45_keypad_timers.md section 2;
decisions D15 and D11). -/
def Obligations.KeySkips : Prop :=
  ∀ (x : Nibble) (s : State),
    (s.KeyDown x → exec (.skp x) s = .next { s with pc := s.pc + 4#16 } ∧
      exec (.sknp x) s = .next { s with pc := s.pc + 2#16 }) ∧
    (¬ s.KeyDown x → exec (.skp x) s = .next { s with pc := s.pc + 2#16 } ∧
      exec (.sknp x) s = .next { s with pc := s.pc + 4#16 })

/-- 6xkk, 8xy0, 8xy1, 8xy2, 8xy3: the value `V[x]` receives, bit by bit for the logic; every other register, VF among them, is
as before (42_alu.md sections 2 and 3; decisions D14 and D10). -/
def Obligations.LoadsAndLogicWriteVx : Prop :=
  ∀ (x y : Nibble) (kk : Byte) (s : State),
    (∃ t, exec (.ldByte x kk) s = .next t ∧ t.getV x = kk ∧ ∀ r, r ≠ x → t.getV r = s.getV r) ∧
    (∃ t, exec (.ldReg x y) s = .next t ∧ t.getV x = s.getV y ∧ ∀ r, r ≠ x → t.getV r = s.getV r) ∧
    (∃ t, exec (.orReg x y) s = .next t ∧ (∀ r, r ≠ x → t.getV r = s.getV r) ∧
      ∀ k, (t.getV x).getLsbD k = ((s.getV x).getLsbD k || (s.getV y).getLsbD k)) ∧
    (∃ t, exec (.andReg x y) s = .next t ∧ (∀ r, r ≠ x → t.getV r = s.getV r) ∧
      ∀ k, (t.getV x).getLsbD k = ((s.getV x).getLsbD k && (s.getV y).getLsbD k)) ∧
    (∃ t, exec (.xorReg x y) s = .next t ∧ (∀ r, r ≠ x → t.getV r = s.getV r) ∧
      ∀ k, (t.getV x).getLsbD k = ((s.getV x).getLsbD k ^^ (s.getV y).getLsbD k))

/-- 7xkk (mask F000, match 7000): the sum wraps modulo 256 and VF is not written, not even on wrap-around, unless it is the
destination; it never faults and advances (42_alu.md R112). -/
def Obligations.AddByteWrapsWithoutAFlag : Prop :=
  (∀ w : Word, w &&& 0xF000#16 = 0x7000#16 → decodeWord w = some (.addByte (w.extractLsb' 8 4) (w.extractLsb' 0 8))) ∧
  ∀ (x : Nibble) (kk : Byte) (s : State),
    ∃ t, exec (.addByte x kk) s = .next t ∧ (t.getV x).toNat = ((s.getV x).toNat + kk.toNat) % 256 ∧
      (∀ r, r ≠ x → t.getV r = s.getV r) ∧ t = { s with v := t.v, pc := s.pc + 2#16 }

/-- 8xy4: the sum of the old values wraps into `V[x]`, and VF is 1 exactly when it exceeds 255, written last, so that with `x
= F` the carry is what stays (42_alu.md R117; that order is decision D9). -/
def Obligations.AddRegSetsTheCarryLast : Prop :=
  ∀ (x y : Nibble) (s : State),
    ∃ t, exec (.addReg x y) s = .next t ∧
      t.getV regF = (if (s.getV x).toNat + (s.getV y).toNat > 255 then 1#8 else 0#8) ∧
      (x ≠ regF → (t.getV x).toNat = ((s.getV x).toNat + (s.getV y).toNat) % 256) ∧ t.pc = s.pc + 2#16

/-- 8xy5: VF is the strict not-borrow and `V[x]` the wrapped difference; where VF is an operand the difference is taken of the
new flag, as the table of decision D9 says (42_alu.md R118). -/
def Obligations.SubRegWritesTheFlagFirst : Prop :=
  ∀ (x y : Nibble) (s : State),
    let a := (s.getV x).toNat
    let b := (s.getV y).toNat
    let flag := if a > b then 1 else 0
    ∃ t, exec (.subReg x y) s = .next t ∧ t.pc = s.pc + 2#16 ∧
      (x ≠ regF → (t.getV regF).toNat = flag) ∧
      (x ≠ regF → y ≠ regF → (t.getV x).toNat = (a + 256 - b) % 256) ∧
      (x ≠ regF → y = regF → (t.getV x).toNat = (a + 256 - flag) % 256) ∧
      (x = regF → y ≠ regF → (t.getV regF).toNat = (flag + 256 - b) % 256) ∧
      (x = regF → y = regF → t.getV regF = 0#8)

/-- 8xy7: the reverse subtraction `V[y] - V[x]` with the same flag and the same order (42_alu.md R120; the operand order is
decision D15, the aliasing D9). -/
def Obligations.SubnRegWritesTheFlagFirst : Prop :=
  ∀ (x y : Nibble) (s : State),
    let a := (s.getV x).toNat
    let b := (s.getV y).toNat
    let flag := if b > a then 1 else 0
    ∃ t, exec (.subnReg x y) s = .next t ∧ t.pc = s.pc + 2#16 ∧
      (x ≠ regF → (t.getV regF).toNat = flag) ∧
      (x ≠ regF → y ≠ regF → (t.getV x).toNat = (b + 256 - a) % 256) ∧
      (x ≠ regF → y = regF → (t.getV x).toNat = (flag + 256 - a) % 256) ∧
      (x = regF → y ≠ regF → (t.getV regF).toNat = (b + 256 - flag) % 256) ∧
      (x = regF → y = regF → t.getV regF = 0#8)

/-- 8xy6 and 8xyE: VF is the bit shifted out and `V[x]` the shifted value; with `x = F` the flag itself is shifted, so 8Fy6
leaves 0 and 8FyE leaves 2 or 0 (42_alu.md R119, R121; the aliasing is decision D9). -/
def Obligations.ShiftsMoveOneBitIntoVF : Prop :=
  ∀ (x y : Nibble) (s : State),
    let a := (s.getV x).toNat
    (∃ t, exec (.shr x y) s = .next t ∧ t.pc = s.pc + 2#16 ∧
      (x ≠ regF → (t.getV regF).toNat = a % 2 ∧ (t.getV x).toNat = a / 2) ∧ (x = regF → t.getV regF = 0#8)) ∧
    (∃ t, exec (.shl x y) s = .next t ∧ t.pc = s.pc + 2#16 ∧
      (x ≠ regF → (t.getV regF).toNat = a / 128 ∧ (t.getV x).toNat = a * 2 % 256) ∧
      (x = regF → (t.getV regF).toNat = if a ≥ 128 then 2 else 0))

/-- In 8xy6 and 8xyE the `y` field is decoded but not used: all sixteen values give the same behaviour, and `V[y]` is neither
read nor written (30_encoding.md R77). -/
def Obligations.ShiftsIgnoreTheYField : Prop :=
  ∀ (x y z : Nibble) (s : State),
    decodeWord (encode (.shr x y)) = some (.shr x y) ∧ decodeWord (encode (.shl x y)) = some (.shl x y) ∧
    exec (.shr x y) s = exec (.shr x z) s ∧ exec (.shl x y) s = exec (.shl x z) s ∧
    (y ≠ x → y ≠ regF → ∀ b : Byte,
      (∃ t, exec (.shr x y) s = .next t ∧ exec (.shr x y) (s.setV y b) = .next (t.setV y b) ∧ t.getV y = s.getV y) ∧
      (∃ t, exec (.shl x y) s = .next t ∧ exec (.shl x y) (s.setV y b) = .next (t.setV y b) ∧ t.getV y = s.getV y))

/-- Cxkk: `V[x]` is the STEP's `rnd` AND `kk`, for every `rnd`, so every bit that `kk` has clear is clear in it (42_alu.md
R122; that `rnd` is a free input is decision D19, notes/assumptions/2.md). -/
def Obligations.RandomIsMaskedByKk : Prop :=
  ∀ (x : Nibble) (kk : Byte) (s : State),
    ∃ t, exec (.rnd x kk) s = .next t ∧ (∀ k, (t.getV x).getLsbD k = (s.rnd.getLsbD k && kk.getLsbD k)) ∧
      (t.getV x).toNat ≤ kk.toNat ∧ ∀ r, r ≠ x → t.getV r = s.getV r

/-- Annn loads `nnn`, Fx1E adds `V[x]` modulo 65536 without touching VF, Fx29 is `V[x] * 5` of all eight bits
(43_index_memory.md section 2; decisions D14, D5 and D24). -/
def Obligations.IndexRegisterResults : Prop :=
  ∀ (x : Nibble) (nnn : Addr) (s : State),
    exec (.ldI nnn) s = .next { s with i := BitVec.ofNat 16 nnn.toNat, pc := s.pc + 2#16 } ∧
    exec (.addI x) s = .next { s with
      i := BitVec.ofNat 16 ((s.i.toNat + (s.getV x).toNat) % 65536), pc := s.pc + 2#16 } ∧
    exec (.ldFont x) s = .next { s with i := BitVec.ofNat 16 ((s.getV x).toNat * 5), pc := s.pc + 2#16 }

/-- Fx33 (mask F0FF, match F033): hundreds, tens and ones of `V[x]` to `I`, `I + 1`, `I + 2`, nothing else in memory, `I` and
the registers as before; where `I + 2 > 0xFFF` it latches MEM_WRITE_RANGE with `I`, no byte is written and `pc` does not move
(43_index_memory.md R133). -/
def Obligations.BcdStoresThreeDigits : Prop :=
  (∀ w : Word, w &&& 0xF0FF#16 = 0xF033#16 → decodeWord w = some (.bcd (w.extractLsb' 8 4))) ∧
  ∀ (x : Nibble) (s : State),
    (s.i.toNat + 2 ≤ 0xFFF → ∃ t, exec (.bcd x) s = .next t ∧
      (t.mem.read s.i.toNat).toNat = (s.getV x).toNat / 100 ∧
      (t.mem.read (s.i.toNat + 1)).toNat = (s.getV x).toNat / 10 % 10 ∧
      (t.mem.read (s.i.toNat + 2)).toNat = (s.getV x).toNat % 10 ∧
      (∀ a, a < s.i.toNat ∨ s.i.toNat + 2 < a → t.mem.read a = s.mem.read a) ∧
      t = { s with mem := t.mem, pc := s.pc + 2#16 }) ∧
    (s.i.toNat + 2 > 0xFFF → exec (.bcd x) s = .next { s with fault := some (.memWriteRange s.i) })

/-- Fx55 (mask F0FF, match F055): `V[0]` to `V[x]` to memory from `I`, nothing else in memory, `I` and the registers as
before; where `I + x > 0xFFF` it latches MEM_WRITE_RANGE with `I` and no byte is written (43_index_memory.md R134). -/
def Obligations.DumpStoresV0ToVx : Prop :=
  (∀ w : Word, w &&& 0xF0FF#16 = 0xF055#16 → decodeWord w = some (.dump (w.extractLsb' 8 4))) ∧
  ∀ (x : Nibble) (s : State),
    (s.i.toNat + x.toNat ≤ 0xFFF → ∃ t, exec (.dump x) s = .next t ∧
      (∀ r : Nibble, r.toNat ≤ x.toNat → t.mem.read (s.i.toNat + r.toNat) = s.getV r) ∧
      (∀ a, a < s.i.toNat ∨ s.i.toNat + x.toNat < a → t.mem.read a = s.mem.read a) ∧
      t = { s with mem := t.mem, pc := s.pc + 2#16 }) ∧
    (s.i.toNat + x.toNat > 0xFFF → exec (.dump x) s = .next { s with fault := some (.memWriteRange s.i) })

/-- Fx65 (mask F0FF, match F065): `V[0]` to `V[x]` from memory from `I`, the registers above `x`, `I` and memory as before;
where `I + x > 0xFFF` it latches MEM_READ_RANGE with `I` and no register changes (43_index_memory.md R135). -/
def Obligations.LoadFillsV0ToVx : Prop :=
  (∀ w : Word, w &&& 0xF0FF#16 = 0xF065#16 → decodeWord w = some (.load (w.extractLsb' 8 4))) ∧
  ∀ (x : Nibble) (s : State),
    (s.i.toNat + x.toNat ≤ 0xFFF → ∃ t, exec (.load x) s = .next t ∧
      (∀ r : Nibble, r.toNat ≤ x.toNat → t.getV r = s.mem.read (s.i.toNat + r.toNat)) ∧
      (∀ r : Nibble, x.toNat < r.toNat → t.getV r = s.getV r) ∧
      t = { s with v := t.v, pc := s.pc + 2#16 }) ∧
    (s.i.toNat + x.toNat > 0xFFF → exec (.load x) s = .next { s with fault := some (.memReadRange s.i) })

/-- What Fx55 stores, Fx65 with the same `x` and `I` loads back, whatever happened to the registers between
(43_index_memory.md R134, R135). -/
def Obligations.DumpThenLoadRestoresRegisters : Prop :=
  ∀ (x : Nibble) (s : State) (v : Vector Byte 16), s.i.toNat + x.toNat ≤ 0xFFF →
    ∃ t u, exec (.dump x) s = .next t ∧ exec (.load x) { t with v := v } = .next u ∧
      ∀ r : Nibble, r.toNat ≤ x.toNat → u.getV r = s.getV r

/-- 00E0 turns every pixel off and makes `dirty` true exactly when some pixel was lit, never false (44_display.md sections 1
and 2; that 00E0 is the canvas operation `clear` is decision D14). -/
def Obligations.ClsClearsTheCanvas : Prop :=
  ∀ s : State, ∃ t, exec .cls s = .next t ∧ (∀ yy xx, pixelAt t.pix yy xx = false) ∧
    (t.dirty = true ↔ s.dirty = true ∨ ∃ yy xx, pixelAt s.pix yy xx = true) ∧
    t = { s with pix := t.pix, dirty := t.dirty, pc := s.pc + 2#16 }

/-- Dxyn whose range is in memory changes exactly the pixels a sprite bit 1 covers, wrapping on both axes, with the
coordinates read before VF is written; VF is 1 exactly when a covered pixel was lit, else 0; `dirty` becomes true exactly when
some pixel is covered (44_display.md R142; the operand roles are decisions D14, D23 and D25). -/
def Obligations.DrawChangesExactlyTheCoveredPixels : Prop :=
  ∀ (x y n : Nibble) (s : State), n = 0#4 ∨ s.i.toNat + n.toNat ≤ 0x1000 →
    let sprite := (List.range n.toNat).map (fun r => s.mem.read (s.i.toNat + r))
    ∃ t, exec (.drw x y n) s = .next t ∧ t.pc = s.pc + 2#16 ∧
      (∀ yy xx, pixelAt t.pix yy xx ≠ pixelAt s.pix yy xx ↔ SpriteCovers (s.getV x) (s.getV y) sprite yy xx) ∧
      (t.getV regF = 1#8 ∨ t.getV regF = 0#8) ∧
      (t.getV regF = 1#8 ↔ ∃ yy xx, SpriteCovers (s.getV x) (s.getV y) sprite yy xx ∧ pixelAt s.pix yy xx = true) ∧
      (t.dirty = true ↔ s.dirty = true ∨ ∃ yy xx, SpriteCovers (s.getV x) (s.getV y) sprite yy xx)

/-- Drawing a sprite twice at the same place brings the canvas back to its prior state, and the second draw collides exactly
when the first turned a pixel on, that is when a sprite bit 1 covered a dark pixel (44_display.md R142, 90_conflicts.md C6;
the coordinates are not in VF, which the first draw writes). -/
def Obligations.DrawingTwiceRestoresTheCanvas : Prop :=
  ∀ (x y n : Nibble) (s : State), x ≠ regF → y ≠ regF → n = 0#4 ∨ s.i.toNat + n.toNat ≤ 0x1000 →
    let sprite := (List.range n.toNat).map (fun r => s.mem.read (s.i.toNat + r))
    ∃ t u, exec (.drw x y n) s = .next t ∧ exec (.drw x y n) t = .next u ∧ u.pix = s.pix ∧
      (u.getV regF = 1#8 ↔ ∃ yy xx, SpriteCovers (s.getV x) (s.getV y) sprite yy xx ∧ pixelAt s.pix yy xx = false)

/-- Fx0A starts the wait for `V[x]`, advances, and neither reads `keys` nor writes a register (45_keypad_timers.md R152). -/
def Obligations.WaitKeyStartsTheWait : Prop :=
  ∀ (x : Nibble) (s : State) (keys : BitVec 16),
    exec (.waitKey x) { s with keys := keys } =
      .next { s with keys := keys, waiting := true, waitReg := x, pc := s.pc + 2#16 }

/-- Fx07 reads DT, Fx15 writes DT, Fx18 writes ST, which `sound_on` shows in the same step (45_keypad_timers.md section 4;
decision D14). -/
def Obligations.TimerInstructions : Prop :=
  ∀ (x : Nibble) (s : State),
    (∃ t, exec (.ldFromDT x) s = .next t ∧ t.getV x = s.dt ∧ (∀ r, r ≠ x → t.getV r = s.getV r) ∧
      t = { s with v := t.v, pc := s.pc + 2#16 }) ∧
    exec (.ldToDT x) s = .next { s with dt := s.getV x, pc := s.pc + 2#16 } ∧
    (∃ t, exec (.ldToST x) s = .next t ∧ t = { s with st := s.getV x, pc := s.pc + 2#16 } ∧
      (t.outputs.soundOn = true ↔ 0 < (s.getV x).toNat))
end

