-- ==== Sys2Proof/Laws/Decode.lean ====
section
/-! SUPPORT. Words as numbers: what a word put together from parts is, what each field of a word is, so that every claim
about an encoding is linear arithmetic; and one lemma that says what a recognised word is. -/

namespace Sys2Proof

theorem toNat_append_eq {m n : Nat} (x : BitVec m) (y : BitVec n) : (x ++ y).toNat = x.toNat * 2 ^ n + y.toNat := by
  rw [BitVec.toNat_append, ← Nat.shiftLeft_add_eq_or_of_lt y.isLt, Nat.shiftLeft_eq]

/-! ### The fields as numbers (30_encoding.md R71) -/

theorem nibbleA_toNat (w : Word) : (nibbleA w).toNat = w.toNat / 4096 := by
  have := w.isLt
  rw [nibbleA, BitVec.extractLsb'_toNat, Nat.shiftRight_eq_div_pow]; omega

theorem nibbleB_toNat (w : Word) : (nibbleB w).toNat = w.toNat / 256 % 16 := by
  rw [nibbleB, BitVec.extractLsb'_toNat, Nat.shiftRight_eq_div_pow]

theorem nibbleC_toNat (w : Word) : (nibbleC w).toNat = w.toNat / 16 % 16 := by
  rw [nibbleC, BitVec.extractLsb'_toNat, Nat.shiftRight_eq_div_pow]

theorem nibbleD_toNat (w : Word) : (nibbleD w).toNat = w.toNat % 16 := by
  rw [nibbleD, BitVec.extractLsb'_toNat, Nat.shiftRight_eq_div_pow]; simp

theorem fieldKK_toNat (w : Word) : (fieldKK w).toNat = w.toNat % 256 := by
  rw [fieldKK, BitVec.extractLsb'_toNat, Nat.shiftRight_eq_div_pow]; simp

theorem fieldNNN_toNat (w : Word) : (fieldNNN w).toNat = w.toNat % 4096 := by
  rw [fieldNNN, BitVec.extractLsb'_toNat, Nat.shiftRight_eq_div_pow]; simp

theorem highByte_toNat (w : Word) : (highByte w).toNat = w.toNat / 256 := by
  have := w.isLt
  rw [highByte, BitVec.extractLsb'_toNat, Nat.shiftRight_eq_div_pow]; omega

theorem lowByte_toNat (w : Word) : (lowByte w).toNat = w.toNat % 256 := by
  rw [lowByte, BitVec.extractLsb'_toNat, Nat.shiftRight_eq_div_pow]; simp

theorem wordOfBytes_toNat (hi lo : Byte) : (wordOfBytes hi lo).toNat = hi.toNat * 256 + lo.toNat := by
  rw [wordOfBytes, toNat_append_eq]; omega

/-- A word is the word of its two bytes (20_memory.md R52). -/
@[simp] theorem wordOfBytes_bytes (w : Word) : wordOfBytes (highByte w) (lowByte w) = w := by
  apply BitVec.eq_of_toNat_eq
  rw [wordOfBytes_toNat, highByte_toNat, lowByte_toNat]; omega

/-! ### Words put together as the encoder does (30_encoding.md R72) -/

theorem formatXYN_toNat (a x y d : Nibble) :
    (show Word from a ++ x ++ y ++ d).toNat = a.toNat * 4096 + x.toNat * 256 + y.toNat * 16 + d.toNat := by
  show (a ++ x ++ y ++ d).toNat = _
  simp only [toNat_append_eq]; omega

theorem formatXKK_toNat (a x : Nibble) (kk : Byte) :
    (show Word from a ++ x ++ kk).toNat = a.toNat * 4096 + x.toNat * 256 + kk.toNat := by
  show (a ++ x ++ kk).toNat = _
  simp only [toNat_append_eq]; omega

theorem formatNNN_toNat (a : Nibble) (nnn : Addr) :
    (show Word from a ++ nnn).toNat = a.toNat * 4096 + nnn.toNat := by
  show (a ++ nnn).toNat = _
  simp only [toNat_append_eq]; omega

section
variable (a x y d : Nibble) (kk : Byte) (nnn : Addr)

theorem nibbleA_xyn : nibbleA (a ++ x ++ y ++ d) = a := by
  apply BitVec.eq_of_toNat_eq; have h := formatXYN_toNat a x y d; rw [nibbleA_toNat]; simp only at h; omega
theorem nibbleB_xyn : nibbleB (a ++ x ++ y ++ d) = x := by
  apply BitVec.eq_of_toNat_eq; have h := formatXYN_toNat a x y d; rw [nibbleB_toNat]; simp only at h; omega
theorem nibbleC_xyn : nibbleC (a ++ x ++ y ++ d) = y := by
  apply BitVec.eq_of_toNat_eq; have h := formatXYN_toNat a x y d; rw [nibbleC_toNat]; simp only at h; omega
theorem nibbleD_xyn : nibbleD (a ++ x ++ y ++ d) = d := by
  apply BitVec.eq_of_toNat_eq; have h := formatXYN_toNat a x y d; rw [nibbleD_toNat]; simp only at h; omega
theorem nibbleA_xkk : nibbleA (a ++ x ++ kk) = a := by
  apply BitVec.eq_of_toNat_eq; have h := formatXKK_toNat a x kk; rw [nibbleA_toNat]; simp only at h; omega
theorem nibbleB_xkk : nibbleB (a ++ x ++ kk) = x := by
  apply BitVec.eq_of_toNat_eq; have h := formatXKK_toNat a x kk; rw [nibbleB_toNat]; simp only at h; omega
theorem fieldKK_xkk : fieldKK (a ++ x ++ kk) = kk := by
  apply BitVec.eq_of_toNat_eq; have h := formatXKK_toNat a x kk; rw [fieldKK_toNat]; simp only at h; omega
theorem nibbleA_nnn : nibbleA (a ++ nnn) = a := by
  apply BitVec.eq_of_toNat_eq; have h := formatNNN_toNat a nnn; rw [nibbleA_toNat]; simp only at h; omega
theorem fieldNNN_nnn : fieldNNN (a ++ nnn) = nnn := by
  apply BitVec.eq_of_toNat_eq; have h := formatNNN_toNat a nnn; rw [fieldNNN_toNat]; simp only at h; omega
end

/-! ### The decoder, one group of words at a time (30_encoding.md R75) -/

/-- What the decoder does with each leading nibble. -/
theorem decodeWord_groups (w : Word) :
    (nibbleA w = 0x0#4 ∧ decodeWord w = decode0 (fieldNNN w)) ∨
    (nibbleA w = 0x1#4 ∧ decodeWord w = some (.jp (fieldNNN w))) ∨
    (nibbleA w = 0x2#4 ∧ decodeWord w = some (.call (fieldNNN w))) ∨
    (nibbleA w = 0x3#4 ∧ decodeWord w = some (.seByte (nibbleB w) (fieldKK w))) ∨
    (nibbleA w = 0x4#4 ∧ decodeWord w = some (.sneByte (nibbleB w) (fieldKK w))) ∨
    (nibbleA w = 0x5#4 ∧ decodeWord w = if nibbleD w = 0x0#4 then some (.seReg (nibbleB w) (nibbleC w)) else none) ∨
    (nibbleA w = 0x6#4 ∧ decodeWord w = some (.ldByte (nibbleB w) (fieldKK w))) ∨
    (nibbleA w = 0x7#4 ∧ decodeWord w = some (.addByte (nibbleB w) (fieldKK w))) ∨
    (nibbleA w = 0x8#4 ∧ decodeWord w = decode8 (nibbleB w) (nibbleC w) (nibbleD w)) ∨
    (nibbleA w = 0x9#4 ∧ decodeWord w = if nibbleD w = 0x0#4 then some (.sneReg (nibbleB w) (nibbleC w)) else none) ∨
    (nibbleA w = 0xA#4 ∧ decodeWord w = some (.ldI (fieldNNN w))) ∨
    (nibbleA w = 0xB#4 ∧ decodeWord w = some (.jpV0 (fieldNNN w))) ∨
    (nibbleA w = 0xC#4 ∧ decodeWord w = some (.rnd (nibbleB w) (fieldKK w))) ∨
    (nibbleA w = 0xD#4 ∧ decodeWord w = some (.drw (nibbleB w) (nibbleC w) (nibbleD w))) ∨
    (nibbleA w = 0xE#4 ∧ decodeWord w = decodeE (nibbleB w) (fieldKK w)) ∨
    (nibbleA w = 0xF#4 ∧ decodeWord w = decodeF (nibbleB w) (fieldKK w)) := by
  have all : ∀ a : Nibble, a = 0x0#4 ∨ a = 0x1#4 ∨ a = 0x2#4 ∨ a = 0x3#4 ∨ a = 0x4#4 ∨ a = 0x5#4 ∨ a = 0x6#4 ∨ a = 0x7#4 ∨
      a = 0x8#4 ∨ a = 0x9#4 ∨ a = 0xA#4 ∨ a = 0xB#4 ∨ a = 0xC#4 ∨ a = 0xD#4 ∨ a = 0xE#4 ∨ a = 0xF#4 := by decide
  rcases all (nibbleA w) with h | h | h | h | h | h | h | h | h | h | h | h | h | h | h | h <;>
    simp only [decodeWord, h] <;> simp

end Sys2Proof
end

