-- ==== Sys2Proof/Laws/State.lean ====
section
/-! SUPPORT. One lemma per field per update of State, true by rfl, and the register read after a register write, so that no
later proof unfolds a record update. -/

namespace Sys2Proof.Machine

variable (s : State)

/-! ### setV -/

@[simp] theorem State.setV_mem (r : Nibble) (b : Byte) : (s.setV r b).mem = s.mem := rfl
@[simp] theorem State.setV_v (r : Nibble) (b : Byte) : (s.setV r b).v = s.v.set r.toNat b r.isLt := rfl
@[simp] theorem State.setV_i (r : Nibble) (b : Byte) : (s.setV r b).i = s.i := rfl
@[simp] theorem State.setV_pc (r : Nibble) (b : Byte) : (s.setV r b).pc = s.pc := rfl
@[simp] theorem State.setV_stack (r : Nibble) (b : Byte) : (s.setV r b).stack = s.stack := rfl
@[simp] theorem State.setV_sp (r : Nibble) (b : Byte) : (s.setV r b).sp = s.sp := rfl
@[simp] theorem State.setV_dt (r : Nibble) (b : Byte) : (s.setV r b).dt = s.dt := rfl
@[simp] theorem State.setV_st (r : Nibble) (b : Byte) : (s.setV r b).st = s.st := rfl
@[simp] theorem State.setV_pix (r : Nibble) (b : Byte) : (s.setV r b).pix = s.pix := rfl
@[simp] theorem State.setV_dirty (r : Nibble) (b : Byte) : (s.setV r b).dirty = s.dirty := rfl
@[simp] theorem State.setV_waiting (r : Nibble) (b : Byte) : (s.setV r b).waiting = s.waiting := rfl
@[simp] theorem State.setV_waitReg (r : Nibble) (b : Byte) : (s.setV r b).waitReg = s.waitReg := rfl
@[simp] theorem State.setV_fault (r : Nibble) (b : Byte) : (s.setV r b).fault = s.fault := rfl
@[simp] theorem State.setV_keys (r : Nibble) (b : Byte) : (s.setV r b).keys = s.keys := rfl
@[simp] theorem State.setV_rnd (r : Nibble) (b : Byte) : (s.setV r b).rnd = s.rnd := rfl
@[simp] theorem State.setV_schedule (r : Nibble) (b : Byte) : (s.setV r b).schedule = s.schedule := rfl
@[simp] theorem State.setV_draws (r : Nibble) (b : Byte) : (s.setV r b).draws = s.draws := rfl

/-! ### setI -/

@[simp] theorem State.setI_mem (w : Word) : (s.setI w).mem = s.mem := rfl
@[simp] theorem State.setI_v (w : Word) : (s.setI w).v = s.v := rfl
@[simp] theorem State.setI_i (w : Word) : (s.setI w).i = w := rfl
@[simp] theorem State.setI_pc (w : Word) : (s.setI w).pc = s.pc := rfl
@[simp] theorem State.setI_stack (w : Word) : (s.setI w).stack = s.stack := rfl
@[simp] theorem State.setI_sp (w : Word) : (s.setI w).sp = s.sp := rfl
@[simp] theorem State.setI_dt (w : Word) : (s.setI w).dt = s.dt := rfl
@[simp] theorem State.setI_st (w : Word) : (s.setI w).st = s.st := rfl
@[simp] theorem State.setI_pix (w : Word) : (s.setI w).pix = s.pix := rfl
@[simp] theorem State.setI_dirty (w : Word) : (s.setI w).dirty = s.dirty := rfl
@[simp] theorem State.setI_waiting (w : Word) : (s.setI w).waiting = s.waiting := rfl
@[simp] theorem State.setI_waitReg (w : Word) : (s.setI w).waitReg = s.waitReg := rfl
@[simp] theorem State.setI_fault (w : Word) : (s.setI w).fault = s.fault := rfl
@[simp] theorem State.setI_keys (w : Word) : (s.setI w).keys = s.keys := rfl
@[simp] theorem State.setI_rnd (w : Word) : (s.setI w).rnd = s.rnd := rfl
@[simp] theorem State.setI_schedule (w : Word) : (s.setI w).schedule = s.schedule := rfl
@[simp] theorem State.setI_draws (w : Word) : (s.setI w).draws = s.draws := rfl
@[simp] theorem State.setI_getV (w : Word) (q : Nibble) : (s.setI w).getV q = s.getV q := rfl

/-! ### setDT -/

@[simp] theorem State.setDT_mem (b : Byte) : (s.setDT b).mem = s.mem := rfl
@[simp] theorem State.setDT_v (b : Byte) : (s.setDT b).v = s.v := rfl
@[simp] theorem State.setDT_i (b : Byte) : (s.setDT b).i = s.i := rfl
@[simp] theorem State.setDT_pc (b : Byte) : (s.setDT b).pc = s.pc := rfl
@[simp] theorem State.setDT_stack (b : Byte) : (s.setDT b).stack = s.stack := rfl
@[simp] theorem State.setDT_sp (b : Byte) : (s.setDT b).sp = s.sp := rfl
@[simp] theorem State.setDT_dt (b : Byte) : (s.setDT b).dt = b := rfl
@[simp] theorem State.setDT_st (b : Byte) : (s.setDT b).st = s.st := rfl
@[simp] theorem State.setDT_pix (b : Byte) : (s.setDT b).pix = s.pix := rfl
@[simp] theorem State.setDT_dirty (b : Byte) : (s.setDT b).dirty = s.dirty := rfl
@[simp] theorem State.setDT_waiting (b : Byte) : (s.setDT b).waiting = s.waiting := rfl
@[simp] theorem State.setDT_waitReg (b : Byte) : (s.setDT b).waitReg = s.waitReg := rfl
@[simp] theorem State.setDT_fault (b : Byte) : (s.setDT b).fault = s.fault := rfl
@[simp] theorem State.setDT_keys (b : Byte) : (s.setDT b).keys = s.keys := rfl
@[simp] theorem State.setDT_rnd (b : Byte) : (s.setDT b).rnd = s.rnd := rfl
@[simp] theorem State.setDT_schedule (b : Byte) : (s.setDT b).schedule = s.schedule := rfl
@[simp] theorem State.setDT_draws (b : Byte) : (s.setDT b).draws = s.draws := rfl
@[simp] theorem State.setDT_getV (b : Byte) (q : Nibble) : (s.setDT b).getV q = s.getV q := rfl

/-! ### setST -/

@[simp] theorem State.setST_mem (b : Byte) : (s.setST b).mem = s.mem := rfl
@[simp] theorem State.setST_v (b : Byte) : (s.setST b).v = s.v := rfl
@[simp] theorem State.setST_i (b : Byte) : (s.setST b).i = s.i := rfl
@[simp] theorem State.setST_pc (b : Byte) : (s.setST b).pc = s.pc := rfl
@[simp] theorem State.setST_stack (b : Byte) : (s.setST b).stack = s.stack := rfl
@[simp] theorem State.setST_sp (b : Byte) : (s.setST b).sp = s.sp := rfl
@[simp] theorem State.setST_dt (b : Byte) : (s.setST b).dt = s.dt := rfl
@[simp] theorem State.setST_st (b : Byte) : (s.setST b).st = b := rfl
@[simp] theorem State.setST_pix (b : Byte) : (s.setST b).pix = s.pix := rfl
@[simp] theorem State.setST_dirty (b : Byte) : (s.setST b).dirty = s.dirty := rfl
@[simp] theorem State.setST_waiting (b : Byte) : (s.setST b).waiting = s.waiting := rfl
@[simp] theorem State.setST_waitReg (b : Byte) : (s.setST b).waitReg = s.waitReg := rfl
@[simp] theorem State.setST_fault (b : Byte) : (s.setST b).fault = s.fault := rfl
@[simp] theorem State.setST_keys (b : Byte) : (s.setST b).keys = s.keys := rfl
@[simp] theorem State.setST_rnd (b : Byte) : (s.setST b).rnd = s.rnd := rfl
@[simp] theorem State.setST_schedule (b : Byte) : (s.setST b).schedule = s.schedule := rfl
@[simp] theorem State.setST_draws (b : Byte) : (s.setST b).draws = s.draws := rfl
@[simp] theorem State.setST_getV (b : Byte) (q : Nibble) : (s.setST b).getV q = s.getV q := rfl

/-! ### setMem -/

@[simp] theorem State.setMem_mem (m : Memory) : (s.setMem m).mem = m := rfl
@[simp] theorem State.setMem_v (m : Memory) : (s.setMem m).v = s.v := rfl
@[simp] theorem State.setMem_i (m : Memory) : (s.setMem m).i = s.i := rfl
@[simp] theorem State.setMem_pc (m : Memory) : (s.setMem m).pc = s.pc := rfl
@[simp] theorem State.setMem_stack (m : Memory) : (s.setMem m).stack = s.stack := rfl
@[simp] theorem State.setMem_sp (m : Memory) : (s.setMem m).sp = s.sp := rfl
@[simp] theorem State.setMem_dt (m : Memory) : (s.setMem m).dt = s.dt := rfl
@[simp] theorem State.setMem_st (m : Memory) : (s.setMem m).st = s.st := rfl
@[simp] theorem State.setMem_pix (m : Memory) : (s.setMem m).pix = s.pix := rfl
@[simp] theorem State.setMem_dirty (m : Memory) : (s.setMem m).dirty = s.dirty := rfl
@[simp] theorem State.setMem_waiting (m : Memory) : (s.setMem m).waiting = s.waiting := rfl
@[simp] theorem State.setMem_waitReg (m : Memory) : (s.setMem m).waitReg = s.waitReg := rfl
@[simp] theorem State.setMem_fault (m : Memory) : (s.setMem m).fault = s.fault := rfl
@[simp] theorem State.setMem_keys (m : Memory) : (s.setMem m).keys = s.keys := rfl
@[simp] theorem State.setMem_rnd (m : Memory) : (s.setMem m).rnd = s.rnd := rfl
@[simp] theorem State.setMem_schedule (m : Memory) : (s.setMem m).schedule = s.schedule := rfl
@[simp] theorem State.setMem_draws (m : Memory) : (s.setMem m).draws = s.draws := rfl
@[simp] theorem State.setMem_getV (m : Memory) (q : Nibble) : (s.setMem m).getV q = s.getV q := rfl

/-! ### jump -/

@[simp] theorem State.jump_mem (a : Word) : (s.jump a).mem = s.mem := rfl
@[simp] theorem State.jump_v (a : Word) : (s.jump a).v = s.v := rfl
@[simp] theorem State.jump_i (a : Word) : (s.jump a).i = s.i := rfl
@[simp] theorem State.jump_pc (a : Word) : (s.jump a).pc = a := rfl
@[simp] theorem State.jump_stack (a : Word) : (s.jump a).stack = s.stack := rfl
@[simp] theorem State.jump_sp (a : Word) : (s.jump a).sp = s.sp := rfl
@[simp] theorem State.jump_dt (a : Word) : (s.jump a).dt = s.dt := rfl
@[simp] theorem State.jump_st (a : Word) : (s.jump a).st = s.st := rfl
@[simp] theorem State.jump_pix (a : Word) : (s.jump a).pix = s.pix := rfl
@[simp] theorem State.jump_dirty (a : Word) : (s.jump a).dirty = s.dirty := rfl
@[simp] theorem State.jump_waiting (a : Word) : (s.jump a).waiting = s.waiting := rfl
@[simp] theorem State.jump_waitReg (a : Word) : (s.jump a).waitReg = s.waitReg := rfl
@[simp] theorem State.jump_fault (a : Word) : (s.jump a).fault = s.fault := rfl
@[simp] theorem State.jump_keys (a : Word) : (s.jump a).keys = s.keys := rfl
@[simp] theorem State.jump_rnd (a : Word) : (s.jump a).rnd = s.rnd := rfl
@[simp] theorem State.jump_schedule (a : Word) : (s.jump a).schedule = s.schedule := rfl
@[simp] theorem State.jump_draws (a : Word) : (s.jump a).draws = s.draws := rfl
@[simp] theorem State.jump_getV (a : Word) (q : Nibble) : (s.jump a).getV q = s.getV q := rfl

/-! ### advance -/

@[simp] theorem State.advance_mem : (s.advance).mem = s.mem := rfl
@[simp] theorem State.advance_v : (s.advance).v = s.v := rfl
@[simp] theorem State.advance_i : (s.advance).i = s.i := rfl
@[simp] theorem State.advance_pc : (s.advance).pc = s.pc + 2#16 := rfl
@[simp] theorem State.advance_stack : (s.advance).stack = s.stack := rfl
@[simp] theorem State.advance_sp : (s.advance).sp = s.sp := rfl
@[simp] theorem State.advance_dt : (s.advance).dt = s.dt := rfl
@[simp] theorem State.advance_st : (s.advance).st = s.st := rfl
@[simp] theorem State.advance_pix : (s.advance).pix = s.pix := rfl
@[simp] theorem State.advance_dirty : (s.advance).dirty = s.dirty := rfl
@[simp] theorem State.advance_waiting : (s.advance).waiting = s.waiting := rfl
@[simp] theorem State.advance_waitReg : (s.advance).waitReg = s.waitReg := rfl
@[simp] theorem State.advance_fault : (s.advance).fault = s.fault := rfl
@[simp] theorem State.advance_keys : (s.advance).keys = s.keys := rfl
@[simp] theorem State.advance_rnd : (s.advance).rnd = s.rnd := rfl
@[simp] theorem State.advance_schedule : (s.advance).schedule = s.schedule := rfl
@[simp] theorem State.advance_draws : (s.advance).draws = s.draws := rfl
@[simp] theorem State.advance_getV (q : Nibble) : (s.advance).getV q = s.getV q := rfl

/-! ### skip -/

@[simp] theorem State.skip_mem : (s.skip).mem = s.mem := rfl
@[simp] theorem State.skip_v : (s.skip).v = s.v := rfl
@[simp] theorem State.skip_i : (s.skip).i = s.i := rfl
@[simp] theorem State.skip_pc : (s.skip).pc = s.pc + 4#16 := rfl
@[simp] theorem State.skip_stack : (s.skip).stack = s.stack := rfl
@[simp] theorem State.skip_sp : (s.skip).sp = s.sp := rfl
@[simp] theorem State.skip_dt : (s.skip).dt = s.dt := rfl
@[simp] theorem State.skip_st : (s.skip).st = s.st := rfl
@[simp] theorem State.skip_pix : (s.skip).pix = s.pix := rfl
@[simp] theorem State.skip_dirty : (s.skip).dirty = s.dirty := rfl
@[simp] theorem State.skip_waiting : (s.skip).waiting = s.waiting := rfl
@[simp] theorem State.skip_waitReg : (s.skip).waitReg = s.waitReg := rfl
@[simp] theorem State.skip_fault : (s.skip).fault = s.fault := rfl
@[simp] theorem State.skip_keys : (s.skip).keys = s.keys := rfl
@[simp] theorem State.skip_rnd : (s.skip).rnd = s.rnd := rfl
@[simp] theorem State.skip_schedule : (s.skip).schedule = s.schedule := rfl
@[simp] theorem State.skip_draws : (s.skip).draws = s.draws := rfl
@[simp] theorem State.skip_getV (q : Nibble) : (s.skip).getV q = s.getV q := rfl

/-! ### push -/

@[simp] theorem State.push_mem (a : Word) (h : s.sp.val < 16) : (s.push a h).mem = s.mem := rfl
@[simp] theorem State.push_v (a : Word) (h : s.sp.val < 16) : (s.push a h).v = s.v := rfl
@[simp] theorem State.push_i (a : Word) (h : s.sp.val < 16) : (s.push a h).i = s.i := rfl
@[simp] theorem State.push_pc (a : Word) (h : s.sp.val < 16) : (s.push a h).pc = s.pc := rfl
@[simp] theorem State.push_stack (a : Word) (h : s.sp.val < 16) : (s.push a h).stack = s.stack.set s.sp.val a h := rfl
@[simp] theorem State.push_sp (a : Word) (h : s.sp.val < 16) : (s.push a h).sp = ⟨s.sp.val + 1, Nat.succ_lt_succ h⟩ := rfl
@[simp] theorem State.push_dt (a : Word) (h : s.sp.val < 16) : (s.push a h).dt = s.dt := rfl
@[simp] theorem State.push_st (a : Word) (h : s.sp.val < 16) : (s.push a h).st = s.st := rfl
@[simp] theorem State.push_pix (a : Word) (h : s.sp.val < 16) : (s.push a h).pix = s.pix := rfl
@[simp] theorem State.push_dirty (a : Word) (h : s.sp.val < 16) : (s.push a h).dirty = s.dirty := rfl
@[simp] theorem State.push_waiting (a : Word) (h : s.sp.val < 16) : (s.push a h).waiting = s.waiting := rfl
@[simp] theorem State.push_waitReg (a : Word) (h : s.sp.val < 16) : (s.push a h).waitReg = s.waitReg := rfl
@[simp] theorem State.push_fault (a : Word) (h : s.sp.val < 16) : (s.push a h).fault = s.fault := rfl
@[simp] theorem State.push_keys (a : Word) (h : s.sp.val < 16) : (s.push a h).keys = s.keys := rfl
@[simp] theorem State.push_rnd (a : Word) (h : s.sp.val < 16) : (s.push a h).rnd = s.rnd := rfl
@[simp] theorem State.push_schedule (a : Word) (h : s.sp.val < 16) : (s.push a h).schedule = s.schedule := rfl
@[simp] theorem State.push_draws (a : Word) (h : s.sp.val < 16) : (s.push a h).draws = s.draws := rfl
@[simp] theorem State.push_getV (a : Word) (h : s.sp.val < 16) (q : Nibble) : (s.push a h).getV q = s.getV q := rfl

/-! ### pop -/

@[simp] theorem State.pop_mem : (s.pop).mem = s.mem := rfl
@[simp] theorem State.pop_v : (s.pop).v = s.v := rfl
@[simp] theorem State.pop_i : (s.pop).i = s.i := rfl
@[simp] theorem State.pop_pc : (s.pop).pc = s.pc := rfl
@[simp] theorem State.pop_stack : (s.pop).stack = s.stack := rfl
@[simp] theorem State.pop_dt : (s.pop).dt = s.dt := rfl
@[simp] theorem State.pop_st : (s.pop).st = s.st := rfl
@[simp] theorem State.pop_pix : (s.pop).pix = s.pix := rfl
@[simp] theorem State.pop_dirty : (s.pop).dirty = s.dirty := rfl
@[simp] theorem State.pop_waiting : (s.pop).waiting = s.waiting := rfl
@[simp] theorem State.pop_waitReg : (s.pop).waitReg = s.waitReg := rfl
@[simp] theorem State.pop_fault : (s.pop).fault = s.fault := rfl
@[simp] theorem State.pop_keys : (s.pop).keys = s.keys := rfl
@[simp] theorem State.pop_rnd : (s.pop).rnd = s.rnd := rfl
@[simp] theorem State.pop_schedule : (s.pop).schedule = s.schedule := rfl
@[simp] theorem State.pop_draws : (s.pop).draws = s.draws := rfl
@[simp] theorem State.pop_getV (q : Nibble) : (s.pop).getV q = s.getV q := rfl

/-! ### setCanvas -/

@[simp] theorem State.setCanvas_mem (p : Canvas) (d : Bool) : (s.setCanvas p d).mem = s.mem := rfl
@[simp] theorem State.setCanvas_v (p : Canvas) (d : Bool) : (s.setCanvas p d).v = s.v := rfl
@[simp] theorem State.setCanvas_i (p : Canvas) (d : Bool) : (s.setCanvas p d).i = s.i := rfl
@[simp] theorem State.setCanvas_pc (p : Canvas) (d : Bool) : (s.setCanvas p d).pc = s.pc := rfl
@[simp] theorem State.setCanvas_stack (p : Canvas) (d : Bool) : (s.setCanvas p d).stack = s.stack := rfl
@[simp] theorem State.setCanvas_sp (p : Canvas) (d : Bool) : (s.setCanvas p d).sp = s.sp := rfl
@[simp] theorem State.setCanvas_dt (p : Canvas) (d : Bool) : (s.setCanvas p d).dt = s.dt := rfl
@[simp] theorem State.setCanvas_st (p : Canvas) (d : Bool) : (s.setCanvas p d).st = s.st := rfl
@[simp] theorem State.setCanvas_pix (p : Canvas) (d : Bool) : (s.setCanvas p d).pix = p := rfl
@[simp] theorem State.setCanvas_dirty (p : Canvas) (d : Bool) : (s.setCanvas p d).dirty = d := rfl
@[simp] theorem State.setCanvas_waiting (p : Canvas) (d : Bool) : (s.setCanvas p d).waiting = s.waiting := rfl
@[simp] theorem State.setCanvas_waitReg (p : Canvas) (d : Bool) : (s.setCanvas p d).waitReg = s.waitReg := rfl
@[simp] theorem State.setCanvas_fault (p : Canvas) (d : Bool) : (s.setCanvas p d).fault = s.fault := rfl
@[simp] theorem State.setCanvas_keys (p : Canvas) (d : Bool) : (s.setCanvas p d).keys = s.keys := rfl
@[simp] theorem State.setCanvas_rnd (p : Canvas) (d : Bool) : (s.setCanvas p d).rnd = s.rnd := rfl
@[simp] theorem State.setCanvas_schedule (p : Canvas) (d : Bool) : (s.setCanvas p d).schedule = s.schedule := rfl
@[simp] theorem State.setCanvas_draws (p : Canvas) (d : Bool) : (s.setCanvas p d).draws = s.draws := rfl
@[simp] theorem State.setCanvas_getV (p : Canvas) (d : Bool) (q : Nibble) : (s.setCanvas p d).getV q = s.getV q := rfl

/-! ### setWait -/

@[simp] theorem State.setWait_mem (b : Bool) (r : Nibble) : (s.setWait b r).mem = s.mem := rfl
@[simp] theorem State.setWait_v (b : Bool) (r : Nibble) : (s.setWait b r).v = s.v := rfl
@[simp] theorem State.setWait_i (b : Bool) (r : Nibble) : (s.setWait b r).i = s.i := rfl
@[simp] theorem State.setWait_pc (b : Bool) (r : Nibble) : (s.setWait b r).pc = s.pc := rfl
@[simp] theorem State.setWait_stack (b : Bool) (r : Nibble) : (s.setWait b r).stack = s.stack := rfl
@[simp] theorem State.setWait_sp (b : Bool) (r : Nibble) : (s.setWait b r).sp = s.sp := rfl
@[simp] theorem State.setWait_dt (b : Bool) (r : Nibble) : (s.setWait b r).dt = s.dt := rfl
@[simp] theorem State.setWait_st (b : Bool) (r : Nibble) : (s.setWait b r).st = s.st := rfl
@[simp] theorem State.setWait_pix (b : Bool) (r : Nibble) : (s.setWait b r).pix = s.pix := rfl
@[simp] theorem State.setWait_dirty (b : Bool) (r : Nibble) : (s.setWait b r).dirty = s.dirty := rfl
@[simp] theorem State.setWait_waiting (b : Bool) (r : Nibble) : (s.setWait b r).waiting = b := rfl
@[simp] theorem State.setWait_waitReg (b : Bool) (r : Nibble) : (s.setWait b r).waitReg = r := rfl
@[simp] theorem State.setWait_fault (b : Bool) (r : Nibble) : (s.setWait b r).fault = s.fault := rfl
@[simp] theorem State.setWait_keys (b : Bool) (r : Nibble) : (s.setWait b r).keys = s.keys := rfl
@[simp] theorem State.setWait_rnd (b : Bool) (r : Nibble) : (s.setWait b r).rnd = s.rnd := rfl
@[simp] theorem State.setWait_schedule (b : Bool) (r : Nibble) : (s.setWait b r).schedule = s.schedule := rfl
@[simp] theorem State.setWait_draws (b : Bool) (r : Nibble) : (s.setWait b r).draws = s.draws := rfl
@[simp] theorem State.setWait_getV (b : Bool) (r : Nibble) (q : Nibble) : (s.setWait b r).getV q = s.getV q := rfl

/-! ### latch -/

@[simp] theorem State.latch_mem (f : Fault) : (s.latch f).mem = s.mem := rfl
@[simp] theorem State.latch_v (f : Fault) : (s.latch f).v = s.v := rfl
@[simp] theorem State.latch_i (f : Fault) : (s.latch f).i = s.i := rfl
@[simp] theorem State.latch_pc (f : Fault) : (s.latch f).pc = s.pc := rfl
@[simp] theorem State.latch_stack (f : Fault) : (s.latch f).stack = s.stack := rfl
@[simp] theorem State.latch_sp (f : Fault) : (s.latch f).sp = s.sp := rfl
@[simp] theorem State.latch_dt (f : Fault) : (s.latch f).dt = s.dt := rfl
@[simp] theorem State.latch_st (f : Fault) : (s.latch f).st = s.st := rfl
@[simp] theorem State.latch_pix (f : Fault) : (s.latch f).pix = s.pix := rfl
@[simp] theorem State.latch_dirty (f : Fault) : (s.latch f).dirty = s.dirty := rfl
@[simp] theorem State.latch_waiting (f : Fault) : (s.latch f).waiting = s.waiting := rfl
@[simp] theorem State.latch_waitReg (f : Fault) : (s.latch f).waitReg = s.waitReg := rfl
@[simp] theorem State.latch_fault (f : Fault) : (s.latch f).fault = some f := rfl
@[simp] theorem State.latch_keys (f : Fault) : (s.latch f).keys = s.keys := rfl
@[simp] theorem State.latch_rnd (f : Fault) : (s.latch f).rnd = s.rnd := rfl
@[simp] theorem State.latch_schedule (f : Fault) : (s.latch f).schedule = s.schedule := rfl
@[simp] theorem State.latch_draws (f : Fault) : (s.latch f).draws = s.draws := rfl
@[simp] theorem State.latch_getV (f : Fault) (q : Nibble) : (s.latch f).getV q = s.getV q := rfl

/-! ### begin -/

@[simp] theorem State.begin_mem (k : BitVec 16) (u : Byte) : (s.begin k u).mem = s.mem := rfl
@[simp] theorem State.begin_v (k : BitVec 16) (u : Byte) : (s.begin k u).v = s.v := rfl
@[simp] theorem State.begin_i (k : BitVec 16) (u : Byte) : (s.begin k u).i = s.i := rfl
@[simp] theorem State.begin_pc (k : BitVec 16) (u : Byte) : (s.begin k u).pc = s.pc := rfl
@[simp] theorem State.begin_stack (k : BitVec 16) (u : Byte) : (s.begin k u).stack = s.stack := rfl
@[simp] theorem State.begin_sp (k : BitVec 16) (u : Byte) : (s.begin k u).sp = s.sp := rfl
@[simp] theorem State.begin_dt (k : BitVec 16) (u : Byte) : (s.begin k u).dt = s.dt := rfl
@[simp] theorem State.begin_st (k : BitVec 16) (u : Byte) : (s.begin k u).st = s.st := rfl
@[simp] theorem State.begin_pix (k : BitVec 16) (u : Byte) : (s.begin k u).pix = s.pix := rfl
@[simp] theorem State.begin_dirty (k : BitVec 16) (u : Byte) : (s.begin k u).dirty = false := rfl
@[simp] theorem State.begin_waiting (k : BitVec 16) (u : Byte) : (s.begin k u).waiting = s.waiting := rfl
@[simp] theorem State.begin_waitReg (k : BitVec 16) (u : Byte) : (s.begin k u).waitReg = s.waitReg := rfl
@[simp] theorem State.begin_fault (k : BitVec 16) (u : Byte) : (s.begin k u).fault = s.fault := rfl
@[simp] theorem State.begin_keys (k : BitVec 16) (u : Byte) : (s.begin k u).keys = k := rfl
@[simp] theorem State.begin_rnd (k : BitVec 16) (u : Byte) : (s.begin k u).rnd = u := rfl
@[simp] theorem State.begin_schedule (k : BitVec 16) (u : Byte) : (s.begin k u).schedule = s.schedule := rfl
@[simp] theorem State.begin_draws (k : BitVec 16) (u : Byte) : (s.begin k u).draws = s.draws := rfl
@[simp] theorem State.begin_getV (k : BitVec 16) (u : Byte) (q : Nibble) : (s.begin k u).getV q = s.getV q := rfl

/-! ### Registers -/

theorem State.setV_getV (r q : Nibble) (b : Byte) : (s.setV r b).getV q = if r = q then b else s.getV q := by
  simp only [State.getV, State.setV_v, Vector.getElem_set, BitVec.toNat_inj]

@[simp] theorem State.setV_getV_same (r : Nibble) (b : Byte) : (s.setV r b).getV r = b := by
  simp [State.setV_getV]

theorem State.setV_getV_other {r q : Nibble} (b : Byte) (h : r ≠ q) : (s.setV r b).getV q = s.getV q := by
  simp [State.setV_getV, h]

/-- Writes of two different registers commute. -/
theorem State.setV_comm {r q : Nibble} (a b : Byte) (h : r ≠ q) : (s.setV r a).setV q b = (s.setV q b).setV r a := by
  have hn : r.toNat ≠ q.toNat := fun e => h (BitVec.eq_of_toNat_eq e)
  simp [State.setV, Vector.set_comm _ _ hn]

@[simp] theorem State.pop_sp_val : s.pop.sp.val = s.sp.val - 1 := rfl

/-! ### The conditional skip: everything it can do -/

theorem State.skipIf_cases (c : Bool) :
    (c = true ∧ s.skipIf c = s.jump (s.pc + 4#16)) ∨ (c = false ∧ s.skipIf c = s.jump (s.pc + 2#16)) := by
  cases c <;> simp [State.skipIf, State.skip, State.advance]

theorem State.skipIf_eq_jump (c : Bool) : s.skipIf c = s.jump (s.pc + if c then 4#16 else 2#16) := by
  cases c <;> rfl

/-! ### Writing registers from V0 upward -/

theorem State.setVs_of_v (k : Nat) (bytes : List Byte) :
    s.setVs k bytes = { s with v := (s.setVs k bytes).v } := by
  induction bytes generalizing s k with
  | nil => rfl
  | cons b rest ih => simp only [State.setVs]; rw [ih]; rfl

/-- Every register after the write: the bytes went to `V[k]` upward, and the others kept their value. -/
theorem State.setVs_getV (k : Nat) (bytes : List Byte) (q : Nibble) (fits : k + bytes.length ≤ 16) :
    (s.setVs k bytes).getV q =
      if h : k ≤ q.toNat ∧ q.toNat - k < bytes.length then bytes[q.toNat - k] else s.getV q := by
  induction bytes generalizing s k with
  | nil => simp [State.setVs]
  | cons b rest ih =>
    simp only [List.length_cons] at fits
    have hq := q.isLt
    have hk : (BitVec.ofNat 4 k).toNat = k := by simp; omega
    rw [State.setVs, ih _ _ (by omega), State.setV_getV]
    have heq : BitVec.ofNat 4 k = q ↔ k = q.toNat := by rw [← BitVec.toNat_inj, hk]
    by_cases h1 : k = q.toNat
    · have h2 : ¬ (k + 1 ≤ q.toNat ∧ q.toNat - (k + 1) < rest.length) := by omega
      have h3 : k ≤ q.toNat ∧ q.toNat - k < (b :: rest).length := by simp; omega
      have h0 : q.toNat - k = 0 := by omega
      rw [dif_neg h2, dif_pos h3, if_pos (heq.2 h1)]
      simp [h0]
    · by_cases h2 : k + 1 ≤ q.toNat ∧ q.toNat - (k + 1) < rest.length
      · have h3 : k ≤ q.toNat ∧ q.toNat - k < (b :: rest).length := by simp; omega
        have e : q.toNat - k = (q.toNat - (k + 1)) + 1 := by omega
        rw [dif_pos h2, dif_pos h3]
        simp [e]
      · have h3 : ¬ (k ≤ q.toNat ∧ q.toNat - k < (b :: rest).length) := by simp; omega
        rw [dif_neg h2, dif_neg h3, if_neg (fun h => h1 (heq.1 h))]

end Sys2Proof.Machine
end

