-- ==== Sys2Proof/Laws/Display.lean ====
section
/-! SUPPORT. The sprite engine in closed form: which pixels its loops change, and when they collide (44_display.md R142). -/

namespace Sys2Proof.Machine

theorem pixelAt_setPixel (p : Canvas) (yy zz : Fin 32) (xx ww : Fin 64) (b : Bool) :
    pixelAt (setPixel p yy xx b) zz ww = if yy = zz ∧ xx = ww then b else pixelAt p zz ww := by
  simp only [pixelAt, setPixel, Fin.getElem_fin, Vector.getElem_set]
  by_cases hy : yy = zz
  · subst hy
    by_cases hx : xx = ww
    · subst hx; simp
    · have : xx.val ≠ ww.val := fun h => hx (Fin.ext h)
      simp [hx, this]
  · have : yy.val ≠ zz.val := fun h => hy (Fin.ext h)
    simp [hy, this]

theorem pixelAt_blank (yy : Fin 32) (xx : Fin 64) : pixelAt blankCanvas yy xx = false := by
  simp [pixelAt, blankCanvas]

/-- Two canvases with equal pixels are equal. -/
theorem canvas_ext (p q : Canvas) (h : ∀ yy xx, pixelAt p yy xx = pixelAt q yy xx) : p = q := by
  apply Vector.ext
  intro a ha
  apply Vector.ext
  intro b hb
  exact h ⟨a, ha⟩ ⟨b, hb⟩

theorem ne_blank_iff (p : Canvas) : p ≠ blankCanvas ↔ ∃ yy xx, pixelAt p yy xx = true := by
  constructor
  · intro h
    by_contra hn
    push Not at hn
    exact h (canvas_ext _ _ (fun yy xx => by simpa [pixelAt_blank] using hn yy xx))
  · rintro ⟨yy, xx, h⟩ rfl
    simp [pixelAt_blank] at h

/-! ### One bit -/

theorem plot_changed (d : Drawing) (y yy : Fin 32) (x xx : Fin 64) (b : Bool) :
    pixelAt (d.plot y x b).pix yy xx ≠ pixelAt d.pix yy xx ↔ b = true ∧ y = yy ∧ x = xx := by
  cases b
  · simp [Drawing.plot]
  · simp only [Drawing.plot, if_true, pixelAt_setPixel]
    by_cases h : y = yy ∧ x = xx
    · obtain ⟨rfl, rfl⟩ := h; simp
    · simp only [h, if_false]; tauto

theorem plot_same {d : Drawing} {y yy : Fin 32} {x xx : Fin 64} {b : Bool} (h : ¬ (y = yy ∧ x = xx)) :
    pixelAt (d.plot y x b).pix yy xx = pixelAt d.pix yy xx := by
  by_contra hn
  exact h ((plot_changed d y yy x xx b).1 hn).2

theorem plot_collision (d : Drawing) (y : Fin 32) (x : Fin 64) (b : Bool) :
    (d.plot y x b).collision = true ↔ d.collision = true ∨ (b = true ∧ pixelAt d.pix y x = true) := by
  cases b <;> simp [Drawing.plot]

theorem plot_dirty (d : Drawing) (y : Fin 32) (x : Fin 64) (b : Bool) :
    (d.plot y x b).dirty = true ↔ d.dirty = true ∨ b = true := by
  cases b <;> simp [Drawing.plot]

/-! ### One row -/

theorem ofNat64_inj {x0 a b : Nat} (ha : a < 8) (hb : b < 8) (h : Fin.ofNat 64 (x0 + a) = Fin.ofNat 64 (x0 + b)) :
    a = b := by
  have := congrArg Fin.val h
  simp only [Fin.ofNat] at this
  omega

theorem columns_changed (d : Drawing) (x0 y : Nat) (row : Byte) (todo : Nat) (ht : todo ≤ 8) (yy : Fin 32) (xx : Fin 64) :
    pixelAt (d.columns x0 y row todo).pix yy xx ≠ pixelAt d.pix yy xx ↔
      Fin.ofNat 32 y = yy ∧ ∃ k, k < todo ∧ Fin.ofNat 64 (x0 + (7 - k)) = xx ∧ row.getLsbD k = true := by
  induction todo generalizing d with
  | zero => simp [Drawing.columns]
  | succ n ih =>
    rw [Drawing.columns]
    have hstep := ih (d.plot (Fin.ofNat 32 y) (Fin.ofNat 64 (x0 + (7 - n))) (row.getLsbD n)) (by omega)
    by_cases hit : Fin.ofNat 32 y = yy ∧ Fin.ofNat 64 (x0 + (7 - n)) = xx
    · -- this bit lies on the pixel, and no later one does
      have hno : ¬ (Fin.ofNat 32 y = yy ∧ ∃ k, k < n ∧ Fin.ofNat 64 (x0 + (7 - k)) = xx ∧ row.getLsbD k = true) := by
        rintro ⟨-, k, hk, hx, -⟩
        have := ofNat64_inj (a := 7 - k) (b := 7 - n) (by omega) (by omega) (hx.trans hit.2.symm)
        omega
      rw [not_congr hstep |>.2 hno |> not_not.1, plot_changed]
      constructor
      · rintro ⟨hb, hy, hx⟩
        exact ⟨hy, n, by omega, hx, hb⟩
      · rintro ⟨hy, k, hk, hx, hb⟩
        have := ofNat64_inj (a := 7 - k) (b := 7 - n) (by omega) (by omega) (hx.trans hit.2.symm)
        have hkn : k = n := by omega
        subst hkn
        exact ⟨hb, hy, hx⟩
    · rw [plot_same hit] at hstep
      rw [hstep]
      constructor
      · rintro ⟨hy, k, hk, rest⟩
        exact ⟨hy, k, by omega, rest⟩
      · rintro ⟨hy, k, hk, hx, hb⟩
        rcases Nat.lt_succ_iff_lt_or_eq.1 hk with hlt | rfl
        · exact ⟨hy, k, hlt, hx, hb⟩
        · exact absurd ⟨hy, hx⟩ hit

theorem columns_collision (d : Drawing) (x0 y : Nat) (row : Byte) (todo : Nat) (ht : todo ≤ 8) :
    (d.columns x0 y row todo).collision = true ↔
      d.collision = true ∨ ∃ k, k < todo ∧ row.getLsbD k = true ∧
        pixelAt d.pix (Fin.ofNat 32 y) (Fin.ofNat 64 (x0 + (7 - k))) = true := by
  induction todo generalizing d with
  | zero => simp [Drawing.columns]
  | succ n ih =>
    rw [Drawing.columns, ih _ (by omega), plot_collision]
    have same : ∀ k, k < n →
        pixelAt (d.plot (Fin.ofNat 32 y) (Fin.ofNat 64 (x0 + (7 - n))) (row.getLsbD n)).pix
          (Fin.ofNat 32 y) (Fin.ofNat 64 (x0 + (7 - k))) =
        pixelAt d.pix (Fin.ofNat 32 y) (Fin.ofNat 64 (x0 + (7 - k))) := by
      intro k hk
      apply plot_same
      rintro ⟨-, hx⟩
      have := ofNat64_inj (a := 7 - n) (b := 7 - k) (by omega) (by omega) hx
      omega
    constructor
    · rintro ((h | ⟨hb, hp⟩) | ⟨k, hk, hb, hp⟩)
      · exact .inl h
      · exact .inr ⟨n, by omega, hb, hp⟩
      · exact .inr ⟨k, by omega, hb, (same k hk) ▸ hp⟩
    · rintro (h | ⟨k, hk, hb, hp⟩)
      · exact .inl (.inl h)
      · rcases Nat.lt_succ_iff_lt_or_eq.1 hk with hlt | rfl
        · exact .inr ⟨k, hlt, hb, (same k hlt).symm ▸ hp⟩
        · exact .inl (.inr ⟨hb, hp⟩)

theorem columns_dirty (d : Drawing) (x0 y : Nat) (row : Byte) (todo : Nat) :
    (d.columns x0 y row todo).dirty = true ↔ d.dirty = true ∨ ∃ k, k < todo ∧ row.getLsbD k = true := by
  induction todo generalizing d with
  | zero => simp [Drawing.columns]
  | succ n ih =>
    rw [Drawing.columns, ih, plot_dirty]
    constructor
    · rintro ((h | h) | ⟨k, hk, hb⟩)
      · exact .inl h
      · exact .inr ⟨n, by omega, h⟩
      · exact .inr ⟨k, by omega, hb⟩
    · rintro (h | ⟨k, hk, hb⟩)
      · exact .inl (.inl h)
      · rcases Nat.lt_succ_iff_lt_or_eq.1 hk with hlt | rfl
        · exact .inr ⟨k, hlt, hb⟩
        · exact .inl (.inr hb)

/-! ### The whole sprite -/

/-- `SpriteCovers` with the first row at height `y`, in the bit numbering of the loops. -/
def LoopCovers (x0 y : Nat) (sprite : List Byte) (yy : Fin 32) (xx : Fin 64) : Prop :=
  ∃ r, ∃ h : r < sprite.length, Fin.ofNat 32 (y + r) = yy ∧
    ∃ k, k < 8 ∧ Fin.ofNat 64 (x0 + (7 - k)) = xx ∧ (sprite[r]).getLsbD k = true

theorem loopCovers_cons (x0 y : Nat) (row : Byte) (rest : List Byte) (yy : Fin 32) (xx : Fin 64) :
    LoopCovers x0 y (row :: rest) yy xx ↔
      (Fin.ofNat 32 y = yy ∧ ∃ k, k < 8 ∧ Fin.ofNat 64 (x0 + (7 - k)) = xx ∧ row.getLsbD k = true) ∨
        LoopCovers x0 (y + 1) rest yy xx := by
  constructor
  · rintro ⟨r, h, hy, hk⟩
    cases r with
    | zero => exact .inl ⟨hy, hk⟩
    | succ r => exact .inr ⟨r, by simpa using h, by rwa [Nat.add_assoc, Nat.add_comm 1 r], hk⟩
  · rintro (⟨hy, hk⟩ | ⟨r, h, hy, hk⟩)
    · exact ⟨0, by simp, hy, hk⟩
    · exact ⟨r + 1, by simpa using h, by rwa [Nat.add_assoc, Nat.add_comm 1 r] at hy, hk⟩

theorem loopCovers_row {x0 y : Nat} {rest : List Byte} {yy : Fin 32} {xx : Fin 64} (hl : rest.length < 32)
    (h : LoopCovers x0 (y + 1) rest yy xx) : Fin.ofNat 32 y ≠ yy := by
  obtain ⟨r, hr, hy, -⟩ := h
  intro hn
  have := congrArg Fin.val (hn.trans hy.symm)
  simp only [Fin.ofNat] at this
  omega

theorem rows_changed (d : Drawing) (x0 y : Nat) (sprite : List Byte) (hl : sprite.length ≤ 32) (yy : Fin 32) (xx : Fin 64) :
    pixelAt (d.rows x0 y sprite).pix yy xx ≠ pixelAt d.pix yy xx ↔ LoopCovers x0 y sprite yy xx := by
  induction sprite generalizing d y with
  | nil =>
    simp only [Drawing.rows, ne_eq, not_true_eq_false, false_iff]
    rintro ⟨r, h, -⟩
    simp at h
  | cons row rest ih =>
    simp only [List.length_cons] at hl
    rw [Drawing.rows, loopCovers_cons]
    have hrest := ih (d.columns x0 y row 8) (y + 1) (by omega)
    have hrow := columns_changed d x0 y row 8 le_rfl yy xx
    by_cases hy : Fin.ofNat 32 y = yy
    · have hno : ¬ LoopCovers x0 (y + 1) rest yy xx := fun h => loopCovers_row (by omega) h hy
      rw [not_congr hrest |>.2 hno |> not_not.1, hrow]
      simp [hno]
    · have hsame : pixelAt (d.columns x0 y row 8).pix yy xx = pixelAt d.pix yy xx := by
        by_contra hn
        exact hy (hrow.1 hn).1
      rw [hsame] at hrest
      rw [hrest]
      exact ⟨.inr, fun h => h.resolve_left (fun h => hy h.1)⟩

theorem rows_collision (d : Drawing) (x0 y : Nat) (sprite : List Byte) (hl : sprite.length ≤ 32) :
    (d.rows x0 y sprite).collision = true ↔
      d.collision = true ∨ ∃ yy xx, LoopCovers x0 y sprite yy xx ∧ pixelAt d.pix yy xx = true := by
  induction sprite generalizing d y with
  | nil =>
    simp only [Drawing.rows, iff_self_or]
    rintro ⟨yy, xx, ⟨r, h, -⟩, -⟩
    simp at h
  | cons row rest ih =>
    simp only [List.length_cons] at hl
    rw [Drawing.rows, ih _ _ (by omega), columns_collision _ _ _ _ _ le_rfl]
    have same : ∀ yy xx, LoopCovers x0 (y + 1) rest yy xx →
        pixelAt (d.columns x0 y row 8).pix yy xx = pixelAt d.pix yy xx := by
      intro yy xx h
      by_contra hn
      exact loopCovers_row (by omega) h ((columns_changed d x0 y row 8 le_rfl yy xx).1 hn).1
    constructor
    · rintro ((h | ⟨k, hk, hb, hp⟩) | ⟨yy, xx, hc, hp⟩)
      · exact .inl h
      · exact .inr ⟨_, _, (loopCovers_cons ..).2 (.inl ⟨rfl, k, hk, rfl, hb⟩), hp⟩
      · exact .inr ⟨yy, xx, (loopCovers_cons ..).2 (.inr hc), (same yy xx hc) ▸ hp⟩
    · rintro (h | ⟨yy, xx, hc, hp⟩)
      · exact .inl (.inl h)
      · rcases (loopCovers_cons ..).1 hc with ⟨rfl, k, hk, rfl, hb⟩ | hc
        · exact .inl (.inr ⟨k, hk, hb, hp⟩)
        · exact .inr ⟨yy, xx, hc, (same yy xx hc).symm ▸ hp⟩

theorem rows_dirty (d : Drawing) (x0 y : Nat) (sprite : List Byte) :
    (d.rows x0 y sprite).dirty = true ↔ d.dirty = true ∨ ∃ yy xx, LoopCovers x0 y sprite yy xx := by
  induction sprite generalizing d y with
  | nil =>
    simp only [Drawing.rows, iff_self_or]
    rintro ⟨yy, xx, r, h, -⟩
    simp at h
  | cons row rest ih =>
    rw [Drawing.rows, ih, columns_dirty]
    simp only [loopCovers_cons]
    constructor
    · rintro ((h | ⟨k, hk, hb⟩) | ⟨yy, xx, hc⟩)
      · exact .inl h
      · exact .inr ⟨_, _, .inl ⟨rfl, k, hk, rfl, hb⟩⟩
      · exact .inr ⟨yy, xx, .inr hc⟩
    · rintro (h | ⟨yy, xx, ⟨-, k, hk, -, hb⟩ | hc⟩)
      · exact .inl (.inl h)
      · exact .inl (.inr ⟨k, hk, hb⟩)
      · exact .inr ⟨yy, xx, hc⟩

theorem loopCovers_iff (x0 y0 : Byte) (sprite : List Byte) (yy : Fin 32) (xx : Fin 64) :
    LoopCovers x0.toNat y0.toNat sprite yy xx ↔ SpriteCovers x0 y0 sprite yy xx := by
  constructor
  · rintro ⟨r, h, hy, k, hk, hx, hb⟩
    have e : 7 - (7 - k) = k := by omega
    exact ⟨r, 7 - k, by omega, congrArg Fin.val hx, congrArg Fin.val hy, h, by rw [e]; exact hb⟩
  · rintro ⟨r, c, hc, hx, hy, h, hb⟩
    have e : 7 - (7 - c) = c := by omega
    exact ⟨r, h, Fin.ext hy, 7 - c, by omega, Fin.ext (by rw [e]; exact hx), hb⟩

/-- `draw_sprite` changes exactly the pixels a sprite bit 1 covers. -/
theorem drawSprite_changed (x0 y0 : Byte) (sprite : List Byte) (s : State) (hl : sprite.length ≤ 32) (yy : Fin 32) (xx : Fin 64) :
    pixelAt (drawSprite x0 y0 sprite s).pix yy xx ≠ pixelAt s.pix yy xx ↔ SpriteCovers x0 y0 sprite yy xx := by
  rw [← loopCovers_iff]
  exact rows_changed _ _ _ _ hl yy xx

/-- It signals a collision exactly when a sprite bit 1 covers a lit pixel. -/
theorem drawSprite_collision (x0 y0 : Byte) (sprite : List Byte) (s : State) (hl : sprite.length ≤ 32) :
    (drawSprite x0 y0 sprite s).collision = true ↔
      ∃ yy xx, SpriteCovers x0 y0 sprite yy xx ∧ pixelAt s.pix yy xx = true := by
  simp only [← loopCovers_iff, drawSprite, rows_collision _ _ _ _ hl]
  simp

/-- It sets the dirty flag exactly when it covers some pixel. -/
theorem drawSprite_dirty (x0 y0 : Byte) (sprite : List Byte) (s : State) :
    (drawSprite x0 y0 sprite s).dirty = true ↔ s.dirty = true ∨ ∃ yy xx, SpriteCovers x0 y0 sprite yy xx := by
  simp only [← loopCovers_iff, drawSprite, rows_dirty]

end Sys2Proof.Machine
end

