-- ==== Sys2Proof/Laws/Memory.lean ====
section
/-! SUPPORT. The laws of memory: what a read gives after a write, that every operation keeps the canonical form, and that
canonical memories with equal bytes are equal data. -/

namespace Sys2Proof.Machine

/-! ### Reads after writes, in any memory -/

theorem Memory.find_filter_same (m : Memory) (a : Nat) : Memory.find (m.filter (fun c => c.1 ≠ a)) a = none := by
  induction m with
  | nil => rfl
  | cons c rest ih =>
    by_cases h : c.1 = a
    · simpa [List.filter_cons, h] using ih
    · simpa [List.filter_cons, h, Memory.find] using ih

theorem Memory.find_filter_other (m : Memory) {a b : Nat} (hab : b ≠ a) :
    Memory.find (m.filter (fun c => c.1 ≠ a)) b = Memory.find m b := by
  induction m with
  | nil => rfl
  | cons c rest ih =>
    by_cases h : c.1 = a
    · have hb : ¬ c.1 = b := by omega
      simpa [List.filter_cons, h, Memory.find, Ne.symm hab] using ih
    · by_cases hb : c.1 = b
      · simp [Memory.find, hb, hab]
      · simpa [List.filter_cons, h, Memory.find, hb] using ih

theorem Memory.find_insert_same (m : Memory) (a : Nat) (u : Byte) (h : m.find a = none) :
    (m.insert a u).find a = some u := by
  induction m with
  | nil => simp [Memory.insert, Memory.find]
  | cons c rest ih =>
    obtain ⟨b, w⟩ := c
    by_cases hb : b = a
    · simp [Memory.find, hb] at h
    · simp only [Memory.find, hb, if_false] at h
      by_cases hlt : a < b
      · simp [Memory.insert, hlt, Memory.find]
      · simp [Memory.insert, hlt, Memory.find, hb, ih h]

theorem Memory.find_insert_other (m : Memory) {a b : Nat} (u : Byte) (h : b ≠ a) :
    (m.insert a u).find b = m.find b := by
  induction m with
  | nil => simp [Memory.insert, Memory.find, Ne.symm h]
  | cons c rest ih =>
    obtain ⟨d, w⟩ := c
    by_cases hlt : a < d
    · simp [Memory.insert, hlt, Memory.find, Ne.symm h]
    · rw [Memory.insert, if_neg hlt]
      by_cases hd : d = b <;> simp [Memory.find, hd, ih]

/-- A read of the written address gives the byte written. -/
@[simp] theorem Memory.read_write_same (m : Memory) (a : Nat) (u : Byte) : (m.write a u).read a = u := by
  by_cases h : u = resetByte a
  · simp only [Memory.write, h, if_true, Memory.read, Memory.find_filter_same, Option.getD_none]
  · simp only [Memory.write, h, if_false, Memory.read]
    rw [Memory.find_insert_same _ _ _ (Memory.find_filter_same m a)]; rfl

/-- A write leaves every other address alone. -/
theorem Memory.read_write_other (m : Memory) {a b : Nat} (u : Byte) (h : b ≠ a) :
    (m.write a u).read b = m.read b := by
  by_cases hu : u = resetByte a
  · simp only [Memory.write, hu, if_true, Memory.read, Memory.find_filter_other m h]
  · simp only [Memory.write, hu, if_false, Memory.read, Memory.find_insert_other _ u h, Memory.find_filter_other m h]

theorem Memory.read_write (m : Memory) (a b : Nat) (u : Byte) :
    (m.write a u).read b = if b = a then u else m.read b := by
  by_cases h : b = a
  · simp [h]
  · simp [h, Memory.read_write_other m u h]

/-- Every byte after storing several. -/
theorem Memory.read_writeBytes (m : Memory) (a b : Nat) (bytes : List Byte) :
    (m.writeBytes a bytes).read b = if h : a ≤ b ∧ b - a < bytes.length then bytes[b - a] else m.read b := by
  induction bytes generalizing m a with
  | nil => simp [Memory.writeBytes]
  | cons u rest ih =>
    rw [Memory.writeBytes, ih, Memory.read_write]
    by_cases hba : b = a
    · subst hba
      simp
    · by_cases h2 : a + 1 ≤ b ∧ b - (a + 1) < rest.length
      · have h3 : a ≤ b ∧ b - a < (u :: rest).length := by simp; omega
        have e : b - a = (b - (a + 1)) + 1 := by omega
        rw [dif_pos h2, dif_pos h3]
        simp [e]
      · have h3 : ¬ (a ≤ b ∧ b - a < (u :: rest).length) := by simp; omega
        rw [dif_neg h2, dif_neg h3, if_neg hba]

/-- Storing several bytes leaves every byte outside the range alone. -/
theorem Memory.read_writeBytes_outside (m : Memory) {a b : Nat} (bytes : List Byte)
    (h : ¬ (a ≤ b ∧ b < a + bytes.length)) : (m.writeBytes a bytes).read b = m.read b := by
  rw [Memory.read_writeBytes, dif_neg (by omega)]

@[simp] theorem Memory.readBytes_length (m : Memory) (a len : Nat) : (m.readBytes a len).length = len := by
  induction len generalizing a with
  | zero => rfl
  | succ n ih => simp [Memory.readBytes, ih]

theorem Memory.readBytes_getElem (m : Memory) (a len k : Nat) (h : k < (m.readBytes a len).length) :
    (m.readBytes a len)[k] = m.read (a + k) := by
  induction len generalizing a k with
  | zero => simp [Memory.readBytes] at h
  | succ n ih =>
    cases k with
    | zero => simp [Memory.readBytes]
    | succ k =>
      have e : a + 1 + k = a + (k + 1) := by omega
      simp [Memory.readBytes, ih, e]

/-! ### The canonical form -/

theorem Memory.mem_insert (m : Memory) (a : Nat) (u : Byte) (c : Host.Cell) :
    c ∈ m.insert a u ↔ c = (a, u) ∨ c ∈ m := by
  induction m with
  | nil => simp [Memory.insert]
  | cons d rest ih =>
    obtain ⟨b, w⟩ := d
    by_cases hlt : a < b
    · simp [Memory.insert, hlt]
    · simp only [Memory.insert, hlt, if_false, List.mem_cons, ih]
      tauto

theorem Memory.insert_pairwise (m : Memory) (a : Nat) (u : Byte) (h : m.Pairwise (fun c d => c.1 < d.1))
    (fresh : ∀ c ∈ m, c.1 ≠ a) : (m.insert a u).Pairwise (fun c d => c.1 < d.1) := by
  induction m with
  | nil => simp [Memory.insert]
  | cons d rest ih =>
    obtain ⟨b, w⟩ := d
    obtain ⟨hd, hr⟩ := List.pairwise_cons.1 h
    have hb : b ≠ a := fresh (b, w) (by simp)
    by_cases hlt : a < b
    · simp only [Memory.insert, hlt, if_true]
      refine List.pairwise_cons.2 ⟨fun c hc => ?_, h⟩
      rcases List.mem_cons.1 hc with rfl | hc
      · exact hlt
      · exact Nat.lt_trans hlt (hd c hc)
    · simp only [Memory.insert, hlt, if_false]
      refine List.pairwise_cons.2 ⟨fun c hc => ?_, ih hr (fun c hc => fresh c (by simp [hc]))⟩
      rcases (Memory.mem_insert rest a u c).1 hc with rfl | hc
      · show b < a; omega
      · exact hd c hc

/-- A write inside the memory keeps the canonical form. -/
theorem Memory.write_wf (m : Memory) (a : Nat) (u : Byte) (ha : a < Config.memSize) (h : m.wf) : (m.write a u).wf := by
  have hsub : ∀ c ∈ m.filter (fun c => c.1 ≠ a), c ∈ m ∧ c.1 ≠ a := by
    intro c hc; simpa using List.mem_filter.1 hc
  have hp : (m.filter (fun c => c.1 ≠ a)).Pairwise (fun c d => c.1 < d.1) := h.1.filter _
  by_cases hu : u = resetByte a
  · rw [Memory.write, if_pos hu]
    exact ⟨hp, fun c hc => h.2 c (hsub c hc).1⟩
  · rw [Memory.write, if_neg hu]
    refine ⟨Memory.insert_pairwise _ _ _ hp (fun c hc => (hsub c hc).2), fun c hc => ?_⟩
    rcases (Memory.mem_insert _ _ _ _).1 hc with rfl | hc
    · exact ⟨ha, hu⟩
    · exact h.2 c (hsub c hc).1

/-- Storing several bytes inside the memory keeps the canonical form. -/
theorem Memory.writeBytes_wf (m : Memory) (a : Nat) (bytes : List Byte) (ha : a + bytes.length ≤ Config.memSize)
    (h : m.wf) : (m.writeBytes a bytes).wf := by
  induction bytes generalizing m a with
  | nil => exact h
  | cons u rest ih =>
    simp only [List.length_cons] at ha
    exact ih _ _ (by omega) (Memory.write_wf m a u (by omega) h)

theorem Memory.nil_wf : Memory.wf [] := ⟨List.Pairwise.nil, by simp⟩

theorem Memory.find_eq_none_of_lt (m : Memory) (a : Nat) (h : ∀ c ∈ m, a < c.1) : m.find a = none := by
  induction m with
  | nil => rfl
  | cons d rest ih =>
    have hd := h d (by simp)
    have hne : ¬ d.1 = a := by omega
    simp only [Memory.find, hne, if_false]
    exact ih (fun c hc => h c (by simp [hc]))

theorem Memory.read_ne_of_head (b : Nat) (u : Byte) (m : Memory) (h : Memory.wf ((b, u) :: m)) :
    Memory.read ((b, u) :: m) b = u ∧ u ≠ resetByte b := by
  refine ⟨by simp [Memory.read, Memory.find], (h.2 (b, u) (by simp)).2⟩

theorem Memory.wf_tail {c : Host.Cell} {m : Memory} (h : Memory.wf (c :: m)) : Memory.wf m :=
  ⟨(List.pairwise_cons.1 h.1).2, fun d hd => h.2 d (by simp [hd])⟩

theorem Memory.read_below (b a : Nat) (u : Byte) (m : Memory) (h : Memory.wf ((b, u) :: m)) (hab : a < b) :
    Memory.read ((b, u) :: m) a = resetByte a := by
  have hd := (List.pairwise_cons.1 h.1).1
  rw [Memory.read, Memory.find_eq_none_of_lt]
  · rfl
  · intro c hc
    rcases List.mem_cons.1 hc with rfl | hc
    · exact hab
    · exact Nat.lt_trans hab (hd c hc)

/-- Two canonical memories that read the same everywhere are the same data. -/
theorem Memory.eq_of_read_eq (m n : Memory) (hm : m.wf) (hn : n.wf) (h : ∀ a, m.read a = n.read a) : m = n := by
  induction m generalizing n with
  | nil =>
    cases n with
    | nil => rfl
    | cons d rest =>
      obtain ⟨b, u⟩ := d
      have hb := Memory.read_ne_of_head b u rest hn
      exact absurd (hb.1.symm.trans (h b).symm) hb.2
  | cons c rest ih =>
    obtain ⟨b, u⟩ := c
    have hb := Memory.read_ne_of_head b u rest hm
    cases n with
    | nil => exact absurd (hb.1.symm.trans (h b)) hb.2
    | cons d rest' =>
      obtain ⟨b', u'⟩ := d
      have hb' := Memory.read_ne_of_head b' u' rest' hn
      have e : b = b' := by
        rcases Nat.lt_trichotomy b b' with hlt | he | hgt
        · exact absurd ((hb.1.symm.trans (h b)).trans (Memory.read_below _ _ _ _ hn hlt)) hb.2
        · exact he
        · exact absurd ((hb'.1.symm.trans (h b').symm).trans (Memory.read_below _ _ _ _ hm hgt)) hb'.2
      subst e
      have eu : u = u' := hb.1.symm.trans ((h b).trans hb'.1)
      subst eu
      have hlow : ∀ (r : Memory), Memory.wf ((b, u) :: r) → ∀ a, a ≤ b → r.read a = resetByte a := by
        intro r hr a ha
        have hd := (List.pairwise_cons.1 hr.1).1
        rw [Memory.read, Memory.find_eq_none_of_lt r a (fun c hc => Nat.lt_of_le_of_lt ha (hd c hc))]
        rfl
      rw [ih rest' (Memory.wf_tail hm) (Memory.wf_tail hn) (fun a => ?_)]
      by_cases hab : a ≤ b
      · rw [hlow rest hm a hab, hlow rest' hn a hab]
      · have hne : ¬ b = a := by omega
        simpa [Memory.read, Memory.find, hne] using h a

end Sys2Proof.Machine
end

