-- ==== Sys2Proof/Laws/HostOps.lean ====
section
/-! SUPPORT. TICK, LOAD, the key delivery and the fetch: one lemma for everything each can do. -/

namespace Sys2Proof.Machine

/-! ### TICK -/

theorem countDown_toNat (t : Byte) : (countDown t).toNat = t.toNat - 1 := by
  unfold countDown
  split
  · next h => subst h; rfl
  · next h =>
    have h0 : t.toNat ≠ 0 := fun h' => h (BitVec.eq_of_toNat_eq (by simpa using h'))
    have hlt := t.isLt
    rw [BitVec.toNat_sub]
    simp only [BitVec.toNat_ofNat]; omega

theorem countDownBy_toNat (n : Nat) (t : Byte) : (countDownBy n t).toNat = t.toNat - n := by
  unfold countDownBy
  split
  · next h => subst h; simp
  · have hlt := t.isLt
    rw [BitVec.toNat_ofNat, Nat.mod_eq_of_lt]; omega

/-- `n + 1` TICKs are `n` TICKs and one more: the closed form is TICK repeated. -/
theorem opTicks_succ (n : Nat) (s : State) : opTicks (n + 1) s = opTick (opTicks n s) := by
  unfold opTicks opTick
  by_cases h : s.faulted = true
  · have h' : s.fault.isSome = true := h
    simp [State.faulted, h']
  · by_cases hw : s.waiting = true
    · simp only [State.faulted] at h ⊢
      simp [h, hw]
    · have e : ∀ t : Byte, countDownBy (n + 1) t = countDown (countDownBy n t) := by
        intro t
        apply BitVec.eq_of_toNat_eq
        rw [countDown_toNat, countDownBy_toNat, countDownBy_toNat]; omega
      simp only [State.faulted] at h ⊢
      simp [h, hw, e]

theorem opTicks_zero (s : State) : opTicks 0 s = s := by
  have e : ∀ t : Byte, countDownBy 0 t = t := fun t => BitVec.eq_of_toNat_eq (by rw [countDownBy_toNat]; rfl)
  simp [opTicks, e]

/-! ### LOAD -/

/-- Every byte of memory after LOAD on a core with no fault latched. -/
theorem opLoad_read (bytes : List Byte) (s : State) (a : Nat) (h : s.fault = none) :
    (opLoad bytes s).mem.read a =
      if h : 0x200 ≤ a ∧ a < 0x1000 ∧ a - 0x200 < bytes.length then bytes[a - 0x200] else s.mem.read a := by
  have hf : s.faulted = false := by simp [State.faulted, h]
  simp only [opLoad, hf, Bool.false_eq_true, if_false, State.setMem_mem, Memory.read_writeBytes, List.length_take,
    Config.progBase, Config.progMax]
  by_cases hc : 0x200 ≤ a ∧ a < 0x1000 ∧ a - 0x200 < bytes.length
  · have hd : 512 ≤ a ∧ a - 512 < min 3584 bytes.length := by omega
    rw [dif_pos hd, dif_pos hc, List.getElem_take]
  · have hd : ¬ (512 ≤ a ∧ a - 512 < min 3584 bytes.length) := by omega
    rw [dif_neg hd, dif_neg hc]

theorem opLoad_wf (bytes : List Byte) (s : State) (h : s.mem.wf) : (opLoad bytes s).mem.wf := by
  unfold opLoad
  split
  · exact h
  · exact Memory.writeBytes_wf _ _ _ (by simp [Config.progBase, Config.progMax, Config.memSize]; omega) h

/-! ### The key delivery -/

theorem lowestKey_none (keys : BitVec 16) (h : lowestKey keys = none) : keys = 0#16 := by
  rw [lowestKey, Option.map_eq_none_iff, List.find?_eq_none] at h
  apply BitVec.eq_of_getLsbD_eq
  intro i hi
  simpa using h i (List.mem_range.2 hi)

theorem lowestKey_some (keys : BitVec 16) (b : Byte) (h : lowestKey keys = some b) :
    b.toNat < 16 ∧ keys.getLsbD b.toNat = true ∧ ∀ j, j < b.toNat → keys.getLsbD j = false := by
  rw [lowestKey, Option.map_eq_some_iff] at h
  obtain ⟨k, hk, rfl⟩ := h
  have hm := List.mem_range.1 (List.mem_of_find?_eq_some hk)
  have hp := List.find?_some hk
  have e : (BitVec.ofNat 8 k).toNat = k := by rw [BitVec.toNat_ofNat, Nat.mod_eq_of_lt]; omega
  rw [e]
  refine ⟨hm, by simpa using hp, fun j hj => ?_⟩
  rw [List.find?_range_eq_some] at hk
  simpa using hk.2.2 j hj

/-! ### Fetch -/

theorem fetch_none {s : State} (h : fetch s = none) : 0xFFE < s.pc.toNat := by
  unfold fetch at h
  split at h
  · assumption
  · cases h

theorem fetch_some {s : State} {w : Word} (h : fetch s = some w) :
    s.pc.toNat ≤ 0xFFE ∧
      w.toNat = (s.mem.read s.pc.toNat).toNat * 256 + (s.mem.read (s.pc.toNat + 1)).toNat := by
  unfold fetch at h
  split at h
  · cases h
  · next hle =>
    cases h
    exact ⟨by omega, wordOfBytes_toNat _ _⟩

end Sys2Proof.Machine
end

