-- ==== Sys2Proof/Laws/Exec.lean ====
section
/-! SUPPORT. The shared operations of the meanings, one lemma each that says everything the operation can do; and the step
taken apart into its cases. -/

namespace Sys2Proof.Machine

/-! ### Range checks -/

theorem outOfRange_eq_true (base : Word) (len : Nat) :
    outOfRange base len = true ↔ 1 ≤ len ∧ 0xFFF < base.toNat + len - 1 := by
  simp [outOfRange]

theorem outOfRange_eq_false (base : Word) (len : Nat) :
    outOfRange base len = false ↔ len = 0 ∨ base.toNat + len ≤ 0x1000 := by
  rw [← Bool.not_eq_true, outOfRange_eq_true]; omega

theorem regsUpTo_length (s : State) (x : Nibble) : (s.regsUpTo x).length = x.toNat + 1 := by
  have := x.isLt
  simp [State.regsUpTo]; omega

theorem regsUpTo_getElem (s : State) (x r : Nibble) (h : r.toNat < (s.regsUpTo x).length) :
    (s.regsUpTo x)[r.toNat] = s.getV r := by
  simp [State.regsUpTo, State.getV]

/-! ### The shared operations -/

theorem writeReg_eq (x : Nibble) (b : Byte) (s : State) : writeReg x b s = .next ((s.setV x b).jump (s.pc + 2#16)) := rfl

theorem flagThenReg_eq (flag : Byte) (x : Nibble) (f : State → Byte) (s : State) :
    flagThenReg flag x f s =
      .next (((s.setV regF flag).setV x (f (s.setV regF flag))).jump (s.pc + 2#16)) := rfl

theorem raiseFault_eq (f : Fault) (s : State) : raiseFault f s = .next (s.latch f) := rfl

/-- A store at `I` either faults with nothing stored or stores every byte and advances. -/
theorem storeAtI_cases (bytes : List Byte) (s : State) :
    (1 ≤ bytes.length ∧ 0xFFF < s.i.toNat + bytes.length - 1 ∧
      storeAtI bytes s = .next (s.latch (.memWriteRange s.i))) ∨
    ((bytes.length = 0 ∨ s.i.toNat + bytes.length ≤ 0x1000) ∧
      storeAtI bytes s = .next ((s.setMem (s.mem.writeBytes s.i.toNat bytes)).jump (s.pc + 2#16))) := by
  unfold storeAtI
  by_cases h : outOfRange s.i bytes.length = true
  · obtain ⟨h1, h2⟩ := (outOfRange_eq_true _ _).1 h
    exact .inl ⟨h1, h2, by rw [if_pos h]; rfl⟩
  · have h' := (outOfRange_eq_false _ _).1 (Bool.not_eq_true _ ▸ h)
    exact .inr ⟨h', by rw [if_neg h]; rfl⟩

/-- The key delivery: no key pressed and nothing changes, or the lowest pressed key goes to `V[wait_reg]` and the wait ends. -/
theorem deliverKey_cases (s : State) :
    (s.keys = 0#16 ∧ deliverKey s = s) ∨
    ∃ b : Byte, b.toNat < 16 ∧ s.keys.getLsbD b.toNat = true ∧ (∀ j, j < b.toNat → s.keys.getLsbD j = false) ∧
      deliverKey s = (s.setV s.waitReg b).setWait false s.waitReg := by
  unfold deliverKey
  cases h : lowestKey s.keys with
  | none => exact .inl ⟨lowestKey_none _ h, rfl⟩
  | some b =>
    obtain ⟨h1, h2, h3⟩ := lowestKey_some _ _ h
    exact .inr ⟨b, h1, h2, h3, rfl⟩

/-! ### The step -/

/-- Phases 2 and 3 of STEP: a key delivery, a fetch fault, an unrecognised word, or one instruction. -/
theorem cycle_cases (s : State) :
    (s.waiting = true ∧ cycle s = .next (deliverKey s)) ∨
    (s.waiting = false ∧ 0xFFE < s.pc.toNat ∧ cycle s = .next (s.latch (.fetchRange s.pc))) ∨
    (s.waiting = false ∧ ∃ w, fetch s = some w ∧ decodeWord w = none ∧ cycle s = .next s.advance) ∨
    (s.waiting = false ∧ ∃ w i, fetch s = some w ∧ decodeWord w = some i ∧ cycle s = exec i s) := by
  unfold cycle
  cases hw : s.waiting with
  | true => simp
  | false =>
    simp only [Bool.false_eq_true, if_false, false_and, false_or, true_and]
    cases hf : fetch s with
    | none => exact .inl ⟨fetch_none hf, rfl⟩
    | some w =>
      right
      cases hd : decodeWord w with
      | none => exact .inl ⟨w, rfl, hd, by simp [execWord, hd, execUnrecognised]⟩
      | some i => exact .inr ⟨w, i, rfl, hd, by simp [execWord, hd]⟩

/-- What the fetch finds, in the terms of Safety: the fetched word decodes to the instruction at `pc`. -/
theorem fetch_bind_decodeWord (s : State) : (fetch s).bind decodeWord = s.instrAtPc := by
  unfold State.instrAtPc
  cases h : fetch s with
  | none => rw [if_neg (by have := fetch_none h; omega)]; rfl
  | some w =>
    obtain ⟨hp, hw⟩ := fetch_some h
    have e : w = BitVec.ofNat 16 s.wordAtPc := by
      apply BitVec.eq_of_toNat_eq
      have hlt := w.isLt
      rw [BitVec.toNat_ofNat, State.wordAtPc, ← hw, Nat.mod_eq_of_lt hlt]
    rw [if_pos hp, ← e]; rfl

/-- `cycle_cases` in the terms of Safety. -/
theorem cycle_cases_instrAtPc (s : State) :
    (s.waiting = true ∧ cycle s = .next (deliverKey s)) ∨
    (s.waiting = false ∧ 0xFFE < s.pc.toNat ∧ s.instrAtPc = none ∧ cycle s = .next (s.latch (.fetchRange s.pc))) ∨
    (s.waiting = false ∧ s.pc.toNat ≤ 0xFFE ∧ s.instrAtPc = none ∧ cycle s = .next s.advance) ∨
    (s.waiting = false ∧ s.pc.toNat ≤ 0xFFE ∧ ∃ i, s.instrAtPc = some i ∧ cycle s = exec i s) := by
  have h := fetch_bind_decodeWord s
  rcases cycle_cases s with hw | ⟨hw, hp, e⟩ | ⟨hw, w, hf, hd, e⟩ | ⟨hw, w, i, hf, hd, e⟩
  · exact .inl hw
  · exact .inr (.inl ⟨hw, hp, by unfold State.instrAtPc; rw [if_neg (by omega)], e⟩)
  · exact .inr (.inr (.inl ⟨hw, (fetch_some hf).1, by rw [← h, hf]; exact hd, e⟩))
  · exact .inr (.inr (.inr ⟨hw, (fetch_some hf).1, i, by rw [← h, hf]; exact hd, e⟩))

/-- STEP: nothing on a faulted core, else phases 2 and 3 after phase 1. -/
theorem opStep_cases (k : BitVec 16) (u : Byte) (s : State) :
    (s.fault ≠ none ∧ opStep k u s = .next s) ∨ (s.fault = none ∧ opStep k u s = cycle (s.begin k u)) := by
  unfold opStep State.faulted
  cases h : s.fault <;> simp

/-- One step of the model is one operation of the host, or the free STEP of an open schedule. -/
theorem step_cases (s : State) :
    (s.schedule = [] ∧ step s = opStep (Config.freeKeys s.draws) (Config.freeRnd s.draws)
      { opTicks (Config.freeTicks s.draws) s with draws := s.draws + 1 }) ∨
    ∃ op rest, s.schedule = op :: rest ∧ step s = perform op { s with schedule := rest } := by
  unfold step hostStep freeStep
  cases h : s.schedule with
  | nil => exact .inl ⟨rfl, rfl⟩
  | cons op rest => exact .inr ⟨op, rest, rfl, rfl⟩

end Sys2Proof.Machine
end

