-- ==== Sys2Proof/Laws/PerInstr.lean ====
section
/-! SUPPORT. One lemma per constructor of Instr: it is well-formed, and the word the encoder gives it selects its own row of
the opcode table, (w AND mask) = match (30_encoding.md R74). -/

namespace Sys2Proof.Laws.RowSelected

/-- The instruction is well-formed and its word selects its row of the opcode table. -/
def Statement (i : Instr) : Prop := i.wellFormed = true ∧ i.row.selects (encode i) = true

/-! ### One lemma per format (30_encoding.md R72) -/

theorem selects_of (r : OpcodeRow) (w : Word) (h : w &&& r.mask = r.pattern) : r.selects w = true := by
  simp [OpcodeRow.selects, h]

theorem selects_nnn (r : OpcodeRow) (a : Nibble) (nnn : Addr) (hm : r.mask = 0xF000#16)
    (hp : r.pattern = a ++ (0#12 : Addr)) : r.selects (a ++ nnn) = true := by
  apply selects_of
  have e : (0xF000#16 : Word) = (0xF#4 : Nibble) ++ (0#12 : Addr) := by decide
  have ha : a &&& 0xF#4 = a := BitVec.and_allOnes
  rw [hm, hp, e, BitVec.and_append, ha, BitVec.and_zero]

theorem selects_xkk (r : OpcodeRow) (a x : Nibble) (kk : Byte) (hm : r.mask = 0xF000#16)
    (hp : r.pattern = a ++ (0#4 : Nibble) ++ (0#8 : Byte)) : r.selects (a ++ x ++ kk) = true := by
  apply selects_of
  have e : (0xF000#16 : Word) = (0xF#4 : Nibble) ++ (0#4 : Nibble) ++ (0#8 : Byte) := by decide
  have ha : a &&& 0xF#4 = a := BitVec.and_allOnes
  rw [hm, hp, e, BitVec.and_append, BitVec.and_append, ha, BitVec.and_zero, BitVec.and_zero]

theorem selects_xyn (r : OpcodeRow) (a x y n : Nibble) (hm : r.mask = 0xF000#16)
    (hp : r.pattern = a ++ (0#4 : Nibble) ++ (0#4 : Nibble) ++ (0#4 : Nibble)) :
    r.selects (a ++ x ++ y ++ n) = true := by
  apply selects_of
  have e : (0xF000#16 : Word) = (0xF#4 : Nibble) ++ (0#4 : Nibble) ++ (0#4 : Nibble) ++ (0#4 : Nibble) := by decide
  have ha : a &&& 0xF#4 = a := BitVec.and_allOnes
  rw [hm, hp, e, BitVec.and_append, BitVec.and_append, BitVec.and_append, ha, BitVec.and_zero, BitVec.and_zero,
    BitVec.and_zero]

theorem selects_xy (r : OpcodeRow) (a d x y : Nibble) (hm : r.mask = 0xF00F#16)
    (hp : r.pattern = a ++ (0#4 : Nibble) ++ (0#4 : Nibble) ++ d) : r.selects (a ++ x ++ y ++ d) = true := by
  apply selects_of
  have e : (0xF00F#16 : Word) = (0xF#4 : Nibble) ++ (0#4 : Nibble) ++ (0#4 : Nibble) ++ (0xF#4 : Nibble) := by decide
  have ha : a &&& 0xF#4 = a := BitVec.and_allOnes
  have hd : d &&& 0xF#4 = d := BitVec.and_allOnes
  rw [hm, hp, e, BitVec.and_append, BitVec.and_append, BitVec.and_append, ha, hd, BitVec.and_zero, BitVec.and_zero]

theorem selects_x (r : OpcodeRow) (a : Nibble) (kk : Byte) (x : Nibble) (hm : r.mask = 0xF0FF#16)
    (hp : r.pattern = a ++ (0#4 : Nibble) ++ kk) : r.selects (a ++ x ++ kk) = true := by
  apply selects_of
  have e : (0xF0FF#16 : Word) = (0xF#4 : Nibble) ++ (0#4 : Nibble) ++ (0xFF#8 : Byte) := by decide
  have ha : a &&& 0xF#4 = a := BitVec.and_allOnes
  have hk : kk &&& 0xFF#8 = kk := BitVec.and_allOnes
  rw [hm, hp, e, BitVec.and_append, BitVec.and_append, ha, hk, BitVec.and_zero]

/-! ### One lemma per constructor -/

theorem cls : Statement .cls := ⟨rfl, by decide⟩
theorem ret : Statement .ret := ⟨rfl, by decide⟩
theorem jp (nnn : Addr) : Statement (.jp nnn) := ⟨rfl, selects_nnn _ _ nnn rfl rfl⟩
theorem call (nnn : Addr) : Statement (.call nnn) := ⟨rfl, selects_nnn _ _ nnn rfl rfl⟩
theorem seByte (x : Nibble) (kk : Byte) : Statement (.seByte x kk) := ⟨rfl, selects_xkk _ _ x kk rfl rfl⟩
theorem sneByte (x : Nibble) (kk : Byte) : Statement (.sneByte x kk) := ⟨rfl, selects_xkk _ _ x kk rfl rfl⟩
theorem seReg (x y : Nibble) : Statement (.seReg x y) := ⟨rfl, selects_xy _ _ _ x y rfl rfl⟩
theorem ldByte (x : Nibble) (kk : Byte) : Statement (.ldByte x kk) := ⟨rfl, selects_xkk _ _ x kk rfl rfl⟩
theorem addByte (x : Nibble) (kk : Byte) : Statement (.addByte x kk) := ⟨rfl, selects_xkk _ _ x kk rfl rfl⟩
theorem ldReg (x y : Nibble) : Statement (.ldReg x y) := ⟨rfl, selects_xy _ _ _ x y rfl rfl⟩
theorem orReg (x y : Nibble) : Statement (.orReg x y) := ⟨rfl, selects_xy _ _ _ x y rfl rfl⟩
theorem andReg (x y : Nibble) : Statement (.andReg x y) := ⟨rfl, selects_xy _ _ _ x y rfl rfl⟩
theorem xorReg (x y : Nibble) : Statement (.xorReg x y) := ⟨rfl, selects_xy _ _ _ x y rfl rfl⟩
theorem addReg (x y : Nibble) : Statement (.addReg x y) := ⟨rfl, selects_xy _ _ _ x y rfl rfl⟩
theorem subReg (x y : Nibble) : Statement (.subReg x y) := ⟨rfl, selects_xy _ _ _ x y rfl rfl⟩
theorem shr (x y : Nibble) : Statement (.shr x y) := ⟨rfl, selects_xy _ _ _ x y rfl rfl⟩
theorem subnReg (x y : Nibble) : Statement (.subnReg x y) := ⟨rfl, selects_xy _ _ _ x y rfl rfl⟩
theorem shl (x y : Nibble) : Statement (.shl x y) := ⟨rfl, selects_xy _ _ _ x y rfl rfl⟩
theorem sneReg (x y : Nibble) : Statement (.sneReg x y) := ⟨rfl, selects_xy _ _ _ x y rfl rfl⟩
theorem ldI (nnn : Addr) : Statement (.ldI nnn) := ⟨rfl, selects_nnn _ _ nnn rfl rfl⟩
theorem jpV0 (nnn : Addr) : Statement (.jpV0 nnn) := ⟨rfl, selects_nnn _ _ nnn rfl rfl⟩
theorem rnd (x : Nibble) (kk : Byte) : Statement (.rnd x kk) := ⟨rfl, selects_xkk _ _ x kk rfl rfl⟩
theorem drw (x y n : Nibble) : Statement (.drw x y n) := ⟨rfl, selects_xyn _ _ x y n rfl rfl⟩
theorem skp (x : Nibble) : Statement (.skp x) := ⟨rfl, selects_x _ _ _ x rfl rfl⟩
theorem sknp (x : Nibble) : Statement (.sknp x) := ⟨rfl, selects_x _ _ _ x rfl rfl⟩
theorem ldFromDT (x : Nibble) : Statement (.ldFromDT x) := ⟨rfl, selects_x _ _ _ x rfl rfl⟩
theorem waitKey (x : Nibble) : Statement (.waitKey x) := ⟨rfl, selects_x _ _ _ x rfl rfl⟩
theorem ldToDT (x : Nibble) : Statement (.ldToDT x) := ⟨rfl, selects_x _ _ _ x rfl rfl⟩
theorem ldToST (x : Nibble) : Statement (.ldToST x) := ⟨rfl, selects_x _ _ _ x rfl rfl⟩
theorem addI (x : Nibble) : Statement (.addI x) := ⟨rfl, selects_x _ _ _ x rfl rfl⟩
theorem ldFont (x : Nibble) : Statement (.ldFont x) := ⟨rfl, selects_x _ _ _ x rfl rfl⟩
theorem bcd (x : Nibble) : Statement (.bcd x) := ⟨rfl, selects_x _ _ _ x rfl rfl⟩
theorem dump (x : Nibble) : Statement (.dump x) := ⟨rfl, selects_x _ _ _ x rfl rfl⟩
theorem load (x : Nibble) : Statement (.load x) := ⟨rfl, selects_x _ _ _ x rfl rfl⟩

end Sys2Proof.Laws.RowSelected
end

