-- ==== Sys2Proof/Tests/Slice0.lean ====
section
/-! SUPPORT. The model's own tests: the words of the spec's encodings, the worked examples and derived vectors of
95_test_vectors.md (each theorem names the vectors its results come from), the well-formedness smoke, and for every obligation
with hypotheses a state and operands that meet them, clause by clause at the boundary values. -/

namespace Sys2Proof.Tests

open Sys2Proof.Machine

/-! ## Helpers -/

/-- The state a result holds, and the old one where it holds none. -/
def after (o : Result) (s : State) : State := match o with | .next t => t | _ => s

/-- A state with a word at its `pc`, high byte first. -/
def withWord (s : State) (w : Word) : State := s.setMem (s.mem.writeBytes s.pc.toNat [highByte w, lowByte w])

/-- One STEP on the word at `pc` (the conventions of 95_test_vectors.md). -/
def stepWord (s : State) (w : Word) (keys : BitVec 16 := 0) (rnd : Byte := 0) : State :=
  after (opStep keys rnd (withWord s w)) s

/-- A reset state with two registers set. -/
def regs (x : Nibble) (a : Byte) (y : Nibble) (b : Byte) : State := (State.reset.setV x a).setV y b

/-- The reset state with some pixels lit, as `(column, row)`. -/
def lit (points : List (Fin 64 × Fin 32)) : State :=
  State.reset.setCanvas (points.foldl (fun p q => setPixel p q.2 q.1 true) blankCanvas) false

/-- The reset state with `I` and bytes there. -/
def atI (a : Word) (bytes : List Byte) : State := (State.reset.setI a).setMem (Memory.writeBytes [] a.toNat bytes)

/-- The reset state with `V[k] = 0x10 + k` (the registers of T79). -/
def counted : State := State.reset.setVs 0 [0x10, 0x11, 0x12, 0x13, 0x14, 0x15, 0x16, 0x17, 0x18, 0x19, 0x1A, 0x1B, 0x1C, 0x1D, 0x1E, 0x1F]

/-- The reset state with a number of stack entries in use. -/
def depth (n : Fin 17) : State := { State.reset with sp := n }

/-- The reset state waiting for a key into `V[r]`. -/
def waitingFor (r : Nibble) : State := State.reset.setWait true r

/-! ## Well-formedness -/

/-- The one check there is, and it refuses: an image of 3585 bytes is one too long; 3584 bytes and none are good. -/
theorem test_wellFormed_program_length :
    programWellFormed (List.replicate 3585 0#8) = false ∧ programWellFormed (List.replicate 3584 0#8) = true ∧
      programWellFormed [] = true := by
  simp [programWellFormed, Config.progMax, -List.reduceReplicate]

/-- Instructions have no check (30_encoding.md R73): the extreme operands of the formats are well-formed. -/
theorem test_wellFormed_instr :
    (Instr.drw 0xF 0xF 0xF).wellFormed = true ∧ (Instr.jp 0xFFF).wellFormed = true ∧
      (Instr.shr 0 0xF).wellFormed = true ∧ (Instr.rnd 0xF 0xFF).wellFormed = true := by decide

/-! ## Decoding: words written out from the patterns of 30_encoding.md R74, x = 1010, y = 0101 -/

theorem test_decode_control :
    decodeWord 0b0000000011101110#16 = some .ret ∧ decodeWord 0b0001100000000001#16 = some (.jp 0x801) ∧
    decodeWord 0b0010010000000010#16 = some (.call 0x402) ∧ decodeWord 0b1011000100100011#16 = some (.jpV0 0x123) ∧
    decodeWord 0b0011101011000011#16 = some (.seByte 0xA 0xC3) ∧ decodeWord 0b0100101011000011#16 = some (.sneByte 0xA 0xC3) ∧
    decodeWord 0b0101101001010000#16 = some (.seReg 0xA 5) ∧ decodeWord 0b1001101001010000#16 = some (.sneReg 0xA 5) := by
  decide

theorem test_decode_alu :
    decodeWord 0b0110101011000011#16 = some (.ldByte 0xA 0xC3) ∧ decodeWord 0b0111101011000011#16 = some (.addByte 0xA 0xC3) ∧
    decodeWord 0b1000101001010000#16 = some (.ldReg 0xA 5) ∧ decodeWord 0b1000101001010001#16 = some (.orReg 0xA 5) ∧
    decodeWord 0b1000101001010010#16 = some (.andReg 0xA 5) ∧ decodeWord 0b1000101001010011#16 = some (.xorReg 0xA 5) ∧
    decodeWord 0b1000101001010100#16 = some (.addReg 0xA 5) ∧ decodeWord 0b1000101001010101#16 = some (.subReg 0xA 5) ∧
    decodeWord 0b1000101001010110#16 = some (.shr 0xA 5) ∧ decodeWord 0b1000101001010111#16 = some (.subnReg 0xA 5) ∧
    decodeWord 0b1000101001011110#16 = some (.shl 0xA 5) ∧ decodeWord 0b1100101011000011#16 = some (.rnd 0xA 0xC3) := by
  decide

theorem test_decode_indexMemory :
    decodeWord 0b1010001011110000#16 = some (.ldI 0x2F0) ∧ decodeWord 0b1111101000011110#16 = some (.addI 0xA) ∧
    decodeWord 0b1111101000101001#16 = some (.ldFont 0xA) ∧ decodeWord 0b1111101000110011#16 = some (.bcd 0xA) ∧
    decodeWord 0b1111101001010101#16 = some (.dump 0xA) ∧ decodeWord 0b1111101001100101#16 = some (.load 0xA) := by
  decide

theorem test_decode_display :
    decodeWord 0b0000000011100000#16 = some .cls ∧ decodeWord 0b1101101001010011#16 = some (.drw 0xA 5 3) := by decide

theorem test_decode_keypadTimers :
    decodeWord 0b1110101010011110#16 = some (.skp 0xA) ∧ decodeWord 0b1110101010100001#16 = some (.sknp 0xA) ∧
    decodeWord 0b1111101000000111#16 = some (.ldFromDT 0xA) ∧ decodeWord 0b1111101000001010#16 = some (.waitKey 0xA) ∧
    decodeWord 0b1111101000010101#16 = some (.ldToDT 0xA) ∧ decodeWord 0b1111101000011000#16 = some (.ldToST 0xA) := by
  decide

/-- The words of S8, a word of every class of R76. -/
theorem test_decode_unrecognised :
    [0x0000, 0x00E1, 0x01E0, 0x00FE, 0x0FFF, 0x5121, 0x8128, 0x812F, 0x9121, 0xE100, 0xE19F, 0xF100, 0xF175, 0xF185,
      0xF1FF].map decodeWord = List.replicate 15 none := by decide

/-- Bytes: high byte first, the rest given back; too few bytes and an unrecognised word refused by name. -/
theorem test_decode_bytes :
    decode [0xA2, 0xF0, 0x60] = .ok (.ldI 0x2F0, [0x60]) ∧ decode [0x81, 0x28] = .error (.unrecognised 0x8128) ∧
    decode [0xA2] = .error .tooShort ∧ decodeTableWord 16 0xA2F0 = some (.ldI 0x2F0) ∧ decodeTableWord 16 0x5121 = none := by
  decide

/-! ## The step cycle -/

/-- T1, T2: high byte first; an odd `pc` is legal. -/
theorem test_step_fetch :
    (stepWord State.reset 0xA2F0).i = 0x2F0 ∧
    (let t := stepWord (State.reset.jump 0x201) 0x6107; t.getV 1 = 7 ∧ t.pc = 0x203) := by decide

/-- T3 step 1, T4. -/
theorem test_step_fetch_range :
    (let t := stepWord (State.reset.jump 0xFFE) 0x6101; t.getV 1 = 1 ∧ t.pc = 0x1000 ∧ t.fault = none) ∧
    (let t := after (opStep 0 0 (State.reset.jump 0xFFF)) State.reset
     t.fault = some (.fetchRange 0xFFF) ∧ t.pc = 0xFFF ∧ t.snapshot = none ∧ t.faultPort = (1, 0xFFF)) := by decide

/-- The fault port after T85, T78, T15 and T16, and with no fault. -/
theorem test_fault_port :
    (stepWord (State.reset.setI 0xFFF) 0xF165).faultPort = (2, 0xFFF) ∧
    (stepWord (State.reset.setI 0x1000) 0xF133).faultPort = (3, 0x1000) ∧
    (stepWord ((depth 16).jump 0x250) 0x2345).faultPort = (4, 0x250) ∧
    (stepWord (State.reset.jump 0x250) 0x00EE).faultPort = (5, 0x250) ∧ State.reset.faultPort = (0, 0) := by decide

/-- A scheduled TICK counts down, and a scheduled RESET clears a fault (T120, T130). -/
theorem test_step_scheduled :
    (after (step { State.reset.setDT 1 with schedule := [.tick] }) (State.reset.setDT 1)).dt = 0 ∧
    (after (step { State.reset.latch (.fetchRange 0xFFF) with schedule := [.reset] }) (State.reset.latch (.fetchRange 0))).fault = none := by
  decide

/-- T5, P6: a faulted core stands still; RESET clears the fault. -/
theorem test_step_faulted :
    let s := State.reset.latch (.fetchRange 0xFFF)
    after (opStep 0xFFFF 1 s) State.reset = s ∧ opTick s = s ∧ opLoad [1, 2, 3] s = s ∧ (opReset s).fault = none := by decide

/-- S8: an unrecognised word advances and does nothing else; the snapshot is (true, false) because ST is 6. -/
theorem test_step_unrecognised :
    let s := (((State.reset.setV 1 0x11).setI 0x123).setDT 5).setST 6
    let t := stepWord s 0x812F
    t = (withWord s 0x812F).jump 0x202 ∧ t.outputs.soundOn = true ∧ t.outputs.pixelsChanged = false := by decide

/-- T114: the lowest pressed key is delivered, no instruction runs. -/
theorem test_step_key_delivery :
    (let t := stepWord (waitingFor 0xF) 0x6107 0x8100
     t.getV 0xF = 8 ∧ t.waiting = false ∧ t.pc = 0x200 ∧ t.getV 1 = 0) ∧
    (stepWord (waitingFor 0xF) 0x6107 0).waiting = true := by decide

/-- The step of the model runs a placed instruction as the first one after reset, and from a faulted, waiting core with
`pc` out of reach as well. -/
theorem test_step_withFetchWord :
    (after (step (State.reset.withFetchWord 16 0x1ABC)) State.reset).pc = 0xABC ∧
    (after (step ((((waitingFor 3).latch (.stackOverflow 0)).jump 0x1000).withFetchWord 16 0x1ABC)) State.reset).pc = 0xABC ∧
    (after (step ({ State.reset with schedule := [.load [1]] }.withFetchWord 16 0x61AA)) State.reset).getV 1 = 0xAA := by
  decide

/-! ## Control flow -/

/-- T10, T11. -/
theorem test_jp :
    (stepWord State.reset 0x1ABC).pc = 0xABC ∧ (stepWord State.reset 0x1200).pc = 0x200 ∧
      (withWord State.reset 0x1200).ended = true ∧ (withWord State.reset 0x1202).ended = false := by decide

/-- T13, and T14: the entry pushed at 0xFFE is 0x1000. -/
theorem test_call :
    (let t := stepWord State.reset 0x2345; t.stack[0] = 0x202 ∧ t.sp = 1 ∧ t.pc = 0x345) ∧
    (let t := stepWord (State.reset.jump 0xFFE) 0x2300; t.stack[0] = 0x1000 ∧ t.sp = 1 ∧ t.pc = 0x300) := by decide

/-- T15. -/
theorem test_call_overflow :
    let t := stepWord ((depth 16).jump 0x250) 0x2345
    t.fault = some (.stackOverflow 0x250) ∧ t.sp = 16 ∧ t.pc = 0x250 ∧ t.stack[15] = 0 ∧ t.snapshot = none := by decide

/-- T17. -/
theorem test_ret :
    let s := { depth 2 with stack := #v[0x222, 0x456, 0, 0, 0, 0, 0, 0, 0, 0, 0, 0, 0, 0, 0, 0] }
    let t := stepWord s 0x00EE
    t.sp = 1 ∧ t.pc = 0x456 ∧ t.stack[1] = 0x456 := by decide

/-- T16. -/
theorem test_ret_underflow :
    let t := stepWord (State.reset.jump 0x250) 0x00EE
    t.fault = some (.stackUnderflow 0x250) ∧ t.pc = 0x250 ∧ t.sp = 0 ∧ t.snapshot = none := by decide

/-- T18, T19, T20. -/
theorem test_jpV0 :
    (stepWord (State.reset.setV 0 4) 0xB300).pc = 0x304 ∧ (stepWord (State.reset.setV 0 0xFF) 0xBFFF).pc = 0x10FE ∧
      (stepWord State.reset 0xB201).pc = 0x201 := by decide

/-- T21. -/
theorem test_seByte :
    (stepWord (State.reset.setV 3 0x42) 0x3342).pc = 0x204 ∧ (stepWord (State.reset.setV 3 0x42) 0x3343).pc = 0x202 := by
  decide

/-- T22. -/
theorem test_sneByte :
    (stepWord (State.reset.setV 3 0x42) 0x4342).pc = 0x202 ∧ (stepWord (State.reset.setV 3 0x42) 0x4343).pc = 0x204 := by
  decide

/-- T23, T24. -/
theorem test_seReg :
    (stepWord (regs 1 7 2 7) 0x5120).pc = 0x204 ∧ (stepWord (regs 1 7 2 8) 0x5120).pc = 0x202 ∧
      (stepWord (State.reset.setV 3 9) 0x5330).pc = 0x204 := by decide

/-- T25, T26. -/
theorem test_sneReg :
    (stepWord (regs 1 7 2 7) 0x9120).pc = 0x202 ∧ (stepWord (regs 1 7 2 8) 0x9120).pc = 0x204 ∧
      (stepWord (State.reset.setV 3 9) 0x9330).pc = 0x202 := by decide

/-! ## ALU -/

/-- T30. -/
theorem test_ldByte : (stepWord State.reset 0x6FAB).getV 0xF = 0xAB := by decide

/-- T31, T32. -/
theorem test_addByte :
    (let t := stepWord (State.reset.setV 1 0xFF) 0x7101; t.getV 1 = 0 ∧ t.getV 0xF = 0) ∧
      (stepWord (State.reset.setV 0xF 0xFF) 0x7F01).getV 0xF = 0 := by decide

/-- T33. -/
theorem test_ldReg : (stepWord (State.reset.setV 2 0x3C) 0x8120).getV 1 = 0x3C := by decide

/-- T34, first word. -/
theorem test_orReg :
    let t := stepWord ((regs 1 0xF0 2 0x3C).setV 0xF 0x5A) 0x8121; t.getV 1 = 0xFC ∧ t.getV 0xF = 0x5A := by decide

/-- T34, second word. -/
theorem test_andReg :
    let t := stepWord ((regs 1 0xF0 2 0x3C).setV 0xF 0x5A) 0x8122; t.getV 1 = 0x30 ∧ t.getV 0xF = 0x5A := by decide

/-- T34, third word, and T35. -/
theorem test_xorReg :
    (let t := stepWord ((regs 1 0xF0 2 0x3C).setV 0xF 0x5A) 0x8123; t.getV 1 = 0xCC ∧ t.getV 0xF = 0x5A) ∧
      (stepWord (State.reset.setV 1 0xF0) 0x8113).getV 1 = 0 := by decide

/-- S4, T36. -/
theorem test_addReg :
    (let t := stepWord (regs 1 0xF0 2 0x1F) 0x8124; t.getV 1 = 0x0F ∧ t.getV 0xF = 1) ∧
    (let t := stepWord ((regs 1 0xF0 2 0x0F).setV 0xF 1) 0x8124; t.getV 1 = 0xFF ∧ t.getV 0xF = 0) ∧
    (let t := stepWord (State.reset.setV 1 0x80) 0x8114; t.getV 1 = 0 ∧ t.getV 0xF = 1) := by decide

/-- T37 to T40. -/
theorem test_addReg_aliased :
    (let t := stepWord (regs 1 0xFF 0xF 1) 0x81F4; t.getV 1 = 0 ∧ t.getV 0xF = 1) ∧
    (stepWord (regs 1 1 0xF 0xFF) 0x8F14).getV 0xF = 1 ∧ (stepWord (regs 1 0x20 0xF 0x10) 0x8F14).getV 0xF = 0 ∧
    (stepWord (State.reset.setV 0xF 0x80) 0x8FF4).getV 0xF = 1 ∧
    (stepWord (State.reset.setV 0xF 0x40) 0x8FF4).getV 0xF = 0 := by decide

/-- S5, T41, T42. -/
theorem test_subReg :
    (let t := stepWord (regs 1 0xFF 2 0x0F) 0x8125; t.getV 1 = 0xF0 ∧ t.getV 0xF = 1) ∧
    (let t := stepWord ((regs 1 0x0F 2 0xFF).setV 0xF 1) 0x8125; t.getV 1 = 0x10 ∧ t.getV 0xF = 0) ∧
    (let t := stepWord ((regs 1 0x33 2 0x33).setV 0xF 1) 0x8125; t.getV 1 = 0 ∧ t.getV 0xF = 0) ∧
    (let t := stepWord (regs 1 0x33 0xF 1) 0x8115; t.getV 1 = 0 ∧ t.getV 0xF = 0) := by decide

/-- T43 to T47. -/
theorem test_subReg_aliased :
    (stepWord (regs 0xF 5 1 3) 0x8F15).getV 0xF = 0xFE ∧ (stepWord (regs 0xF 3 1 5) 0x8F15).getV 0xF = 0xFB ∧
    (let t := stepWord (regs 1 5 0xF 3) 0x81F5; t.getV 0xF = 1 ∧ t.getV 1 = 4) ∧
    (let t := stepWord (regs 1 3 0xF 5) 0x81F5; t.getV 0xF = 0 ∧ t.getV 1 = 3) ∧
    (stepWord (State.reset.setV 0xF 9) 0x8FF5).getV 0xF = 0 := by decide

/-- T48 to T51. -/
theorem test_shr :
    (let t := stepWord (regs 1 5 2 0xAA) 0x8126; t.getV 1 = 2 ∧ t.getV 0xF = 1 ∧ t.getV 2 = 0xAA) ∧
    (let t := stepWord (regs 1 4 0xF 1) 0x8126; t.getV 1 = 2 ∧ t.getV 0xF = 0) ∧
    (let t := stepWord (State.reset.setV 1 1) 0x8126; t.getV 1 = 0 ∧ t.getV 0xF = 1) ∧
    (stepWord (State.reset.setV 0xF 0xFF) 0x8F16).getV 0xF = 0 := by decide

/-- T52 to T54. -/
theorem test_subnReg :
    (let t := stepWord (regs 1 0x0F 2 0xFF) 0x8127; t.getV 1 = 0xF0 ∧ t.getV 0xF = 1) ∧
    (let t := stepWord ((regs 1 0xFF 2 0x0F).setV 0xF 1) 0x8127; t.getV 1 = 0x10 ∧ t.getV 0xF = 0) ∧
    (let t := stepWord ((regs 1 7 2 7).setV 0xF 1) 0x8127; t.getV 1 = 0 ∧ t.getV 0xF = 0) := by decide

/-- T55 to T59. -/
theorem test_subnReg_aliased :
    (stepWord (regs 0xF 3 1 5) 0x8F17).getV 0xF = 4 ∧ (stepWord (regs 0xF 5 1 3) 0x8F17).getV 0xF = 3 ∧
    (let t := stepWord (regs 1 5 0xF 9) 0x81F7; t.getV 0xF = 1 ∧ t.getV 1 = 0xFC) ∧
    (let t := stepWord (regs 1 9 0xF 5) 0x81F7; t.getV 0xF = 0 ∧ t.getV 1 = 0xF7) ∧
    (stepWord (State.reset.setV 0xF 9) 0x8FF7).getV 0xF = 0 := by decide

/-- T60 to T62, and T7: `y` is ignored. -/
theorem test_shl :
    (let t := stepWord (regs 1 0x81 2 0x55) 0x812E; t.getV 1 = 2 ∧ t.getV 0xF = 1 ∧ t.getV 2 = 0x55) ∧
    (let t := stepWord (regs 1 0x81 2 0x55) 0x81FE; t.getV 1 = 2 ∧ t.getV 0xF = 1 ∧ t.getV 2 = 0x55) ∧
    (let t := stepWord (regs 1 0x40 0xF 1) 0x812E; t.getV 1 = 0x80 ∧ t.getV 0xF = 0) ∧
    (let t := stepWord (State.reset.setV 1 0x80) 0x812E; t.getV 1 = 0 ∧ t.getV 0xF = 1) := by decide

/-- T63. -/
theorem test_shl_aliased :
    (stepWord (State.reset.setV 0xF 0x80) 0x8F1E).getV 0xF = 2 ∧ (stepWord (State.reset.setV 0xF 0x7F) 0x8F1E).getV 0xF = 0 ∧
      (stepWord (State.reset.setV 0xF 0xFF) 0x8F1E).getV 0xF = 2 := by decide

/-- T65 to T68. -/
theorem test_rnd :
    (stepWord State.reset 0xC10F 0 0xA7).getV 1 = 7 ∧ (stepWord (State.reset.setV 1 0x55) 0xC100 0 0xA7).getV 1 = 0 ∧
      (stepWord State.reset 0xC1FF 0 0xA7).getV 1 = 0xA7 ∧ (stepWord State.reset 0xCF3C 0 0xFF).getV 0xF = 0x3C := by decide

/-! ## Index and memory -/

/-- T70. -/
theorem test_ldI : (stepWord State.reset 0xA123).i = 0x123 := by decide

/-- T71 to T73. -/
theorem test_addI :
    (let t := stepWord ((regs 1 1 0xF 7).setI 0xFFF) 0xF11E; t.i = 0x1000 ∧ t.getV 0xF = 7 ∧ t.fault = none) ∧
    (stepWord ((State.reset.setV 1 2).setI 0xFFFF) 0xF11E).i = 1 ∧
    (let t := stepWord ((State.reset.setV 0xF 0xF0).setI 0x10) 0xFF1E; t.i = 0x100 ∧ t.getV 0xF = 0xF0) := by decide

/-- T74. -/
theorem test_ldFont :
    (stepWord (State.reset.setV 1 0x0A) 0xF129).i = 0x32 ∧ (stepWord State.reset 0xF129).i = 0 ∧
      (stepWord (State.reset.setV 1 0x1F) 0xF129).i = 0x9B ∧ (stepWord (State.reset.setV 1 0xFF) 0xF129).i = 0x4FB := by decide

/-- S7, T75, T76. -/
theorem test_bcd :
    (let t := stepWord ((State.reset.setV 1 123).setI 0x300) 0xF133
     t.mem.readBytes 0x300 4 = [1, 2, 3, 0] ∧ t.i = 0x300 ∧ t.getV 1 = 123) ∧
    (stepWord ((State.reset.setV 1 7).setI 0x300) 0xF133).mem.readBytes 0x300 3 = [0, 0, 7] ∧
    (stepWord ((State.reset.setV 1 255).setI 0x300) 0xF133).mem.readBytes 0x300 3 = [2, 5, 5] ∧
    (let t := stepWord ((State.reset.setV 1 100).setI 0xFFD) 0xF133
     t.mem.readBytes 0xFFD 3 = [1, 0, 0] ∧ t.fault = none) := by decide

/-- T77, T78. -/
theorem test_bcd_range :
    (let t := stepWord ((State.reset.setV 1 99).setI 0xFFE) 0xF133
     t.fault = some (.memWriteRange 0xFFE) ∧ t.mem.readBytes 0xFFE 2 = [0, 0] ∧ t.pc = 0x200 ∧ t.snapshot = none) ∧
    (stepWord ((State.reset.setV 1 5).setI 0x1000) 0xF133).fault = some (.memWriteRange 0x1000) := by decide

/-- T79, T80, T82. -/
theorem test_dump :
    (let t := stepWord (counted.setI 0x400) 0xF355
     t.mem.readBytes 0x400 5 = [0x10, 0x11, 0x12, 0x13, 0] ∧ t.i = 0x400) ∧
    (let t := stepWord (counted.setI 0xFF0) 0xFF55; t.mem.read 0xFF0 = 0x10 ∧ t.mem.read 0xFFF = 0x1F ∧ t.fault = none) ∧
    (let t := stepWord (counted.setI 0xFFF) 0xF055; t.mem.read 0xFFF = 0x10 ∧ t.fault = none) := by decide

/-- T81, and P6 step 3. -/
theorem test_dump_range :
    (let t := stepWord (counted.setI 0xFF1) 0xFF55; t.fault = some (.memWriteRange 0xFF1) ∧ t.mem.read 0xFF1 = 0) ∧
    (let t := stepWord ((State.reset.setV 0 1).setI 0xFFF) 0xF155
     t.fault = some (.memWriteRange 0xFFF) ∧ t.mem.read 0xFFF = 0) := by decide

/-- T83, T84, T87. -/
theorem test_load :
    (let t := stepWord (State.reset.setV 5 0x77) 0xF465
     [t.getV 0, t.getV 1, t.getV 2, t.getV 3, t.getV 4, t.getV 5] = [0xF0, 0x90, 0x90, 0x90, 0xF0, 0x77]) ∧
    (let t := stepWord ((State.reset.setV 0xF 9).setI 0x4B) 0xFF65
     [t.getV 0, t.getV 1, t.getV 2, t.getV 3, t.getV 4, t.getV 5, t.getV 0xF] = [0xF0, 0x80, 0xF0, 0x80, 0x80, 0, 0]) ∧
    (let t := stepWord ((State.reset.setV 2 0xEE).setI 0x200) 0xF265; [t.getV 0, t.getV 1, t.getV 2] = [0xF2, 0x65, 0]) := by
  decide

/-- T85, T86. -/
theorem test_load_range :
    (let t := stepWord ((regs 0 9 1 8).setI 0xFFF) 0xF165; t.fault = some (.memReadRange 0xFFF) ∧ t.getV 0 = 9) ∧
    (let t := stepWord ((State.reset.setV 0 9).setI 0xFFF) 0xF065; t.getV 0 = 0 ∧ t.fault = none) := by decide

/-! ## Display -/

/-- T90, T91. -/
theorem test_cls :
    (let t := stepWord ((lit [(4, 3)]).setV 0xF 7) 0x00E0
     pixelAt t.pix 3 4 = false ∧ t.outputs.pixelsChanged = true ∧ t.getV 0xF = 7) ∧
    (stepWord State.reset 0x00E0).outputs.pixelsChanged = false := by decide

/-- S2 (all forty pixels of its four corners, and four just outside), T93 and T94. -/
theorem test_drw_wraps :
    (let t := stepWord (((atI 0x300 [0xFF, 0xFF, 0xFF, 0xFF, 0xFF]).setV 0 60).setV 1 30) 0xD015
     (∀ yy ∈ [30, 31, 0, 1, 2], ∀ xx ∈ [60, 61, 62, 63, 0, 1, 2, 3], pixelAt t.pix yy xx = true) ∧
     pixelAt t.pix 3 0 = false ∧ pixelAt t.pix 29 0 = false ∧ pixelAt t.pix 0 4 = false ∧ pixelAt t.pix 0 59 = false ∧
     t.getV 0xF = 0 ∧ t.outputs.pixelsChanged = true) ∧
    pixelAt (stepWord (((atI 0x300 [0x80]).setV 0 0xFF).setV 1 0xFF) 0xD011).pix 31 63 = true ∧
    pixelAt (stepWord (((atI 0x300 [0x80]).setV 0 64).setV 1 32) 0xD011).pix 0 0 = true := by decide

/-- S1 step 1, T92, T95 step 1, T96, T97. -/
theorem test_drw_flag_and_range :
    (let t := stepWord ((((lit [(11, 5)]).setV 0 10).setV 1 5 |>.setI 0x300).setMem (Memory.writeBytes [] 0x300 [0xC0])) 0xD011
     pixelAt t.pix 5 10 = true ∧ pixelAt t.pix 5 11 = false ∧ t.getV 0xF = 1) ∧
    (let t := stepWord ((State.reset.setI 0xFFFF).setV 0xF 1) 0xD010
     t.getV 0xF = 0 ∧ t.fault = none ∧ t.outputs.pixelsChanged = false) ∧
    (let t := stepWord (((atI 0x300 [0x80]).setV 0xF 3).setV 1 2) 0xDF11; pixelAt t.pix 2 3 = true ∧ t.getV 0xF = 0) ∧
    (let t := stepWord (((lit [(0, 0)]).setI 0x300).setV 0xF 1) 0xD013
     pixelAt t.pix 0 0 = true ∧ t.getV 0xF = 0 ∧ t.outputs.pixelsChanged = false) ∧
    (let t := stepWord ((atI 0xFFE [0xFF, 0xFF]).setV 0xF 7) 0xD013
     t.fault = some (.memReadRange 0xFFE) ∧ pixelAt t.pix 0 0 = false ∧ t.getV 0xF = 7 ∧ t.snapshot = none) := by decide

/-! ## Keypad and timers -/

/-- T110, T112, T113. -/
theorem test_skp :
    (stepWord (State.reset.setV 1 5) 0xE19E 0x0020).pc = 0x204 ∧ (stepWord (State.reset.setV 1 5) 0xE19E 0).pc = 0x202 ∧
    (stepWord (State.reset.setV 1 5) 0xE19E 0xFFDF).pc = 0x202 ∧ (stepWord (State.reset.setV 1 0x15) 0xE19E 0xFFFF).pc = 0x202 ∧
    (stepWord (State.reset.setV 1 0x0F) 0xE19E 0x8000).pc = 0x204 ∧ (stepWord State.reset 0xE19E 1).pc = 0x204 := by decide

/-- T111, T112. -/
theorem test_sknp :
    (stepWord (State.reset.setV 1 5) 0xE1A1 0x0020).pc = 0x202 ∧ (stepWord (State.reset.setV 1 5) 0xE1A1 0).pc = 0x204 ∧
      (stepWord (State.reset.setV 1 0x15) 0xE1A1 0xFFFF).pc = 0x204 := by decide

/-- T114 step 1, T115 step 1. -/
theorem test_waitKey :
    (let t := stepWord State.reset 0xFF0A 0xFFFF; t.waiting = true ∧ t.waitReg = 0xF ∧ t.pc = 0x202 ∧ t.getV 0xF = 0) ∧
    (let t := stepWord (State.reset.setV 3 0x99) 0xF30A 1; t.waiting = true ∧ t.getV 3 = 0x99) := by decide

/-- T116. -/
theorem test_ldFromDT : let t := stepWord (State.reset.setDT 0x2A) 0xF307; t.getV 3 = 0x2A ∧ t.dt = 0x2A := by decide

/-- T117. -/
theorem test_ldToDT : (stepWord (State.reset.setV 3 60) 0xF315).dt = 60 := by decide

/-- T118 step 1, T119. -/
theorem test_ldToST :
    (let t := stepWord (State.reset.setV 4 2) 0xF418; t.st = 2 ∧ t.outputs.soundOn = true) ∧
    (let t := stepWord (State.reset.setST 9) 0xF418; t.st = 0 ∧ t.outputs.soundOn = false) := by decide

/-! ## The host's other operations -/

/-- S3, T115, T120. -/
theorem test_tick :
    (let t := opTick ((State.reset.setDT 5).setST 1); t.dt = 4 ∧ t.st = 0) ∧ (opTick State.reset).dt = 0 ∧
    (let t := opTick (((waitingFor 3).setDT 5).setST 1); t.dt = 5 ∧ t.st = 1) ∧
    (let t := opTicks 255 ((State.reset.setDT 255).setST 255); t.dt = 0 ∧ t.st = 0) ∧
    (opTicks 254 (State.reset.setDT 255)).dt = 1 := by decide

/-- T131, T133, T134. -/
theorem test_load_op :
    (let t := opLoad [0x12, 0x00] State.reset; t.mem = [(0x200, 0x12)] ∧ t.pc = 0x200) ∧
    opLoad [] State.reset = State.reset ∧
    (opLoad [0x11] (opLoad [0xAA, 0xBB, 0xCC, 0xDD] State.reset)).mem.readBytes 0x200 4 = [0x11, 0xBB, 0xCC, 0xDD] := by decide

/-- T132: the byte past the memory is dropped, the last one in memory is not. -/
theorem test_load_op_truncates :
    (opLoad (List.replicate 3585 0x46#8) State.reset).mem.read 0xFFF = 0x46 ∧
    (opLoad (List.replicate 3585 0x46#8) State.reset).mem.read 0x1000 = 0 ∧
    (opLoad (List.replicate 3585 0x46#8) State.reset).mem.read 0x1FF = 0 := by
  simp only [opLoad_read _ State.reset _ rfl]
  simp [State.reset, Memory.read, Memory.find, resetByte, Config.fontBytes, -List.reduceReplicate]

/-- T130, P6: RESET from a faulted state gives the reset state; the first and last glyph bytes of the default font. -/
theorem test_reset_op :
    opReset ((counted.jump 0x204).latch (.memWriteRange 0xFFF)) = State.reset ∧
    State.reset.mem.read 0 = 0xF0 ∧ State.reset.mem.read 79 = 0x80 ∧ State.reset.mem.read 80 = 0 := by decide

/-! ## Witnesses: for each obligation with hypotheses, states and operands that meet them, clause by clause -/

theorem witness_EncodeOfDecodeIsTheWord :
    decodeWord 0x81F6#16 = some (.shr 1 0xF) ∧ decodeWord 0xFFFF#16 = none ∧ decodeWord 0xDFFF#16 = some (.drw 0xF 0xF 0xF) := by
  decide

theorem witness_DecodingIsSelectionInTheTable :
    decodeWord 0x00E0#16 = some .cls ∧ ⟨0xF00F, 0x8006⟩ ∈ opcodeRows ∧ 0x8FF6#16 &&& 0xF00F#16 = 0x8006#16 := by decide

/-- One word of each of R76's six classes, at the edges of the class. -/
theorem witness_UnrecognisedWordsAreSixClasses :
    decodeWord 0x0FFF#16 = none ∧ decodeWord 0x0000#16 = none ∧ decodeWord 0x00E1#16 = none ∧ decodeWord 0x5001#16 = none ∧
    decodeWord 0x8008#16 = none ∧ decodeWord 0x8FFD#16 = none ∧ decodeWord 0x8FFF#16 = none ∧ decodeWord 0x9FFF#16 = none ∧
    decodeWord 0xE09D#16 = none ∧ decodeWord 0xEFA2#16 = none ∧ decodeWord 0xF006#16 = none ∧ decodeWord 0xFF66#16 = none := by
  decide

/-- A scheduled STEP, at the last address a fetch reads from. -/
theorem witness_StepRunsTheDecodedInstruction_scheduled :
    let s := withWord { State.reset with pc := 0xFFE, schedule := [.step 0x8000 0xFF, .tick] } 0x7F01
    s.fault = none ∧ s.waiting = false ∧ s.instrAtPc = some (.addByte 0xF 1) ∧ s.schedule = .step 0x8000 0xFF :: [.tick] := by
  decide

/-- The open schedule of the reset state. -/
theorem witness_StepRunsTheDecodedInstruction_open :
    let s := withWord State.reset 0x1ABC
    s.fault = none ∧ s.waiting = false ∧ s.instrAtPc = some (.jp 0xABC) ∧ s.schedule = [] := by decide

/-- A schedule that begins with each of the four operations, on a faulted and on a waiting core, and an open schedule on both
(and at a `pc` out of reach). -/
theorem witness_StepRunsTheDecodedInstruction_operations :
    (let s := { State.reset.latch (.fetchRange 0xFFF) with schedule := [.reset, .tick] }; s.schedule = .reset :: [.tick]) ∧
    (let s := { waitingFor 3 with schedule := [.load [1]] }; s.schedule = .load [1] :: []) ∧
    (let s := { waitingFor 3 with schedule := [.tick] }; s.schedule = .tick :: []) ∧
    (let s := { State.reset.jump 0xFFF with schedule := [.step 0xFFFF 0xFF] }; s.schedule = .step 0xFFFF 0xFF :: []) ∧
    (State.reset.latch (.fetchRange 0xFFF)).schedule = [] ∧ (waitingFor 3).schedule = [] ∧
    (State.reset.jump 0x1000).schedule = [] := by decide

theorem witness_UnrecognisedWordOnlyAdvances :
    let s := State.reset.jump 0xFFE
    s.fault = none ∧ s.waiting = false ∧ s.pc.toNat ≤ 0xFFE ∧ decodeWord (BitVec.ofNat 16 s.wordAtPc) = none := by decide

theorem witness_FetchOutsideMemoryFaults :
    let s := State.reset.jump 0xFFF
    s.fault = none ∧ s.waiting = false ∧ 0xFFE < s.pc.toNat := by decide

theorem witness_FaultedCoreStandsStill : (State.reset.latch (.fetchRange 0xFFF)).fault ≠ none := by decide

/-- No key, the lowest key 0, and the lowest key 15. -/
theorem witness_WaitingStepDeliversTheLowestKey :
    (waitingFor 0xF).fault = none ∧ (waitingFor 0xF).waiting = true ∧ (0#16 : BitVec 16) = 0 ∧
    (0xFFFF#16).getLsbD 0 = true ∧
    (15 < 16 ∧ (0x8000#16).getLsbD 15 = true ∧ ∀ j, j < 15 → (0x8000#16).getLsbD j = false) := by decide

/-- A 00E0 on a lit canvas, a 00E0 on a blank one, a Dxyn, another instruction, and a waiting step. -/
theorem witness_PixelsChangedIsExact :
    (withWord (lit [(4, 3)]) 0x00E0).fault = none ∧ (∃ t, opStep 0 0 (withWord (lit [(4, 3)]) 0x00E0) = .next t) ∧
    (∃ t, opStep 0 0 (withWord State.reset 0x00E0) = .next t ∧ t.dirty = false) ∧
    (∃ t, opStep 0 0 (withWord (atI 0x300 [0x80]) 0xD011) = .next t ∧ pixelAt t.pix 0 0 ≠ pixelAt State.reset.pix 0 0) ∧
    (∃ t, opStep 0 0 (withWord State.reset 0x6101) = .next t) ∧ (∃ t, opStep 1 0 (waitingFor 1) = .next t) :=
  ⟨by decide, ⟨_, rfl⟩, ⟨_, rfl, by decide⟩, ⟨_, rfl, by decide⟩, ⟨_, rfl⟩, ⟨_, rfl⟩⟩

theorem witness_SnapshotShowsTheStateAfterTheStep :
    (∃ t, opStep 0 0 (withWord (State.reset.setV 4 1) 0xF418) = .next t ∧ t.fault = none ∧ t.st = 1) ∧
    (∃ t, opStep 0 0 (withWord State.reset 0xF418) = .next t ∧ t.fault = none ∧ t.st = 0) :=
  ⟨⟨_, rfl, by decide⟩, ⟨_, rfl, by decide⟩⟩

/-- Running (timers at 0 and at 1), waiting, faulted. -/
theorem witness_TickCountsDownSaturating :
    (State.reset.fault = none ∧ State.reset.waiting = false ∧ State.reset.dt = 0) ∧
    ((State.reset.setDT 1).fault = none ∧ (State.reset.setDT 1).waiting = false) ∧
    (waitingFor 0).waiting = true ∧ (State.reset.latch (.stackOverflow 0)).fault ≠ none := by decide

/-- Two bytes: the first and last written address, and the first address of each kind that is not; an image whose last byte in
memory is at 0xFFF and whose next byte is dropped. -/
theorem witness_LoadFillsTheProgramArea :
    State.reset.fault = none ∧ (1 < [0x12#8, 0x00#8].length ∧ 0x200 + 1 ≤ 0xFFF) ∧ 0x1FF < 0x200 ∧
    0x200 + [0x12#8, 0x00#8].length ≤ 0x202 ∧ 0xFFF < 0x1000 ∧
    (3583 < (List.replicate 3585 0#8).length ∧ 0x200 + 3583 ≤ 0xFFF ∧ ¬ 0x200 + 3584 ≤ 0xFFF) := by
  simp [State.reset, -List.reduceReplicate]

/-- A faulted core, the empty image and the longest one, no frame and a frame of two STEPs. -/
theorem witness_BootLoadsTheProgram :
    (let s := { State.reset.latch (.fetchRange 0xFFF) with schedule := hostSchedule [] [] }
     programWellFormed [] = true ∧ s.schedule = hostSchedule [] []) ∧
    (let s := { State.reset with schedule := hostSchedule [0x12, 0x00] [[(0, 0), (1, 0xFF)]] }
     programWellFormed [0x12, 0x00] = true ∧ s.schedule = hostSchedule [0x12, 0x00] [[(0, 0), (1, 0xFF)]]) ∧
    programWellFormed (List.replicate 3584 0#8) = true := by
  refine ⟨by decide, by decide, ?_⟩
  simp [programWellFormed, Config.progMax, -List.reduceReplicate]

/-- A state at the bounds of the invariant (`pc` 0x10FE, an entry 0x1000, a byte listed), under an operation and under an open
schedule. -/
theorem witness_StepKeepsTheInvariant :
    (let s := { atI 0x300 [1] with pc := 0x10FE, stack := Vector.replicate 16 0x1000, sp := 16, schedule := [.step 0 0] }
     s.Inv ∧ ∃ t, step s = .next t) ∧
    (∃ t, State.reset.Inv ∧ step State.reset = .next t) :=
  ⟨⟨by decide, _, rfl⟩, ⟨_, by decide, rfl⟩⟩

/-- A fetch fault and an instruction's fault that explain themselves, under a STEP; and the unfaulted reset state. -/
theorem witness_StepKeepsFaultsExplained :
    (let s := { (State.reset.jump 0xFFF).latch (.fetchRange 0xFFF) with schedule := [.step 0 0] }
     s.FaultExplained ∧ ∃ t, step s = .next t) ∧
    (let s := { (withWord State.reset 0x00EE).latch (.stackUnderflow 0x200) with schedule := [.tick] }
     s.FaultExplained ∧ ∃ t, step s = .next t) ∧
    State.reset.FaultExplained := by
  refine ⟨⟨?_, _, rfl⟩, ⟨?_, _, rfl⟩, ?_⟩
  · intro f hf
    cases hf
    exact .inl (by decide)
  · intro f hf
    cases hf
    exact .inr ⟨.ret, by decide, by decide⟩
  · intro f hf
    cases hf

/-- The wait begins by Fx0A; it ends by a STEP with a key, and by RESET. -/
theorem witness_KeyWaitBeginsAndEndsAsStated :
    (∃ t, perform (.step 0xFFFF 0) (withWord State.reset 0xFF0A) = .next t ∧ t.waiting = true) ∧ State.reset.waiting = false ∧
    (∃ t, perform (.step 0x8000 0) (waitingFor 0xF) = .next t ∧ t.waiting = false) ∧ (waitingFor 0xF).waiting = true ∧
    (∃ t, perform .reset (waitingFor 0xF) = .next t ∧ t.waiting = false) :=
  ⟨⟨_, rfl, by decide⟩, by decide, ⟨_, rfl, by decide⟩, by decide, ⟨_, rfl, by decide⟩⟩

/-- TICK, LOAD, and STEP without and with a key, on a waiting core with running timers. -/
theorem witness_KeyWaitFreezesTheTimers :
    let s := ((waitingFor 3).setDT 5).setST 1
    s.waiting = true ∧ (∃ t, perform .tick s = .next t) ∧ (∃ t, perform (.load [1]) s = .next t) ∧
      (∃ t, perform (.step 0 0) s = .next t) ∧ (∃ t, perform (.step 1 0) s = .next t) ∧ HostOp.tick ≠ .reset :=
  ⟨by decide, ⟨_, rfl⟩, ⟨_, rfl⟩, ⟨_, rfl⟩, ⟨_, rfl⟩, by decide⟩

/-- A STEP that changes DT and one that changes ST, to the largest value. -/
theorem witness_StepWritesTimersOnlyByTheirInstructions :
    (let s := withWord (State.reset.setV 3 0xFF) 0xF315; ∃ t, opStep 0 0 s = .next t ∧ t.dt ≠ s.dt) ∧
    (let s := withWord (State.reset.setV 3 0xFF) 0xF318; ∃ t, opStep 0 0 s = .next t ∧ t.st ≠ s.st) :=
  ⟨⟨_, rfl, by decide⟩, ⟨_, rfl, by decide⟩⟩

/-- A waiting STEP and an unrecognised word; the canvas changed by 00E0, the dirty flag by Dxyn, an instruction that is no
Dxyn, and a register that is not VF. -/
theorem witness_CanvasFeedsBackOnlyThroughVF :
    ((waitingFor 1).waiting = true ∧ ∃ t, opStep 1 0 (waitingFor 1) = .next t) ∧
    (State.reset.instrAtPc = none ∧ ∃ t, opStep 0 0 State.reset = .next t) ∧
    (∃ t, exec .cls (lit [(4, 3)]) = .next t ∧ t.pix ≠ (lit [(4, 3)]).pix) ∧
    (∃ t, exec (.drw 0 1 1) (atI 0x300 [0x80]) = .next t ∧ t.dirty ≠ (atI 0x300 [0x80]).dirty) ∧
    (∀ x y n, Instr.cls ≠ .drw x y n) ∧ (0xE#4 ≠ regF) :=
  ⟨⟨by decide, _, rfl⟩, ⟨by decide, _, rfl⟩, ⟨_, rfl, by decide⟩, ⟨_, rfl, by decide⟩, fun _ _ _ h => (by cases h), by decide⟩

/-- A call that writes an entry (the first and the last), a return that moves SP, both faults, and an instruction that is
neither. -/
theorem witness_StackIsNotMemory :
    (∃ t, exec (.call 0x345) State.reset = .next t ∧ t.stack ≠ State.reset.stack ∧ t.sp ≠ State.reset.sp) ∧
    (∃ t, exec (.call 0x345) (depth 15) = .next t ∧ t.stack ≠ (depth 15).stack) ∧
    (∃ t, exec .ret (depth 16) = .next t ∧ t.sp ≠ (depth 16).sp) ∧
    (∃ t, exec (.call 0x345) (depth 16) = .next t) ∧ (∃ t, exec .ret (depth 0) = .next t) ∧
    (∃ t, exec (.load 0xF) (depth 16) = .next t) ∧ Instr.load 0xF ≠ .ret ∧ (∀ nnn, Instr.load 0xF ≠ .call nnn) :=
  ⟨⟨_, rfl, by decide⟩, ⟨_, rfl, by decide⟩, ⟨_, rfl, by decide⟩, ⟨_, rfl⟩, ⟨_, rfl⟩, ⟨_, rfl⟩, by decide,
    fun _ h => (by cases h)⟩

/-- An instruction that runs and one that faults; a waiting step; an unrecognised word at 0xFFE and a fetch at 0xFFF. -/
theorem witness_PcMovesExactlyOnce :
    (∃ t, exec (.jpV0 0xFFF) State.reset = .next t) ∧ (∃ t, exec .ret State.reset = .next t) ∧
    (waitingFor 1).fault = none ∧ (∃ t, opStep 1 0 (waitingFor 1) = .next t) ∧ (waitingFor 1).waiting = true ∧
    (∃ t, opStep 0 0 (State.reset.jump 0xFFE) = .next t) ∧ (State.reset.jump 0xFFE).instrAtPc = none ∧
    (∃ t, opStep 0 0 (State.reset.jump 0xFFF) = .next t) ∧ (State.reset.jump 0xFFF).instrAtPc = none ∧
    (State.reset.jump 0xFFF).waiting = false :=
  ⟨⟨_, rfl⟩, ⟨_, rfl⟩, by decide, ⟨_, rfl⟩, by decide, ⟨_, rfl⟩, by decide, ⟨_, rfl⟩, by decide, by decide⟩

/-- Each row of R161's table at its edge, the last value that does not fault beside the first that does. -/
theorem witness_FaultTableIsExact :
    faultOf (.drw 0 1 0) (atI 0xFFFF []) = none ∧ faultOf (.drw 0 1 1) (atI 0xFFF []) = none ∧
    faultOf (.drw 0 1 1) (atI 0x1000 []) = some (.memReadRange 0x1000) ∧
    faultOf (.drw 0 1 0xF) (atI 0xFF1 []) = none ∧ faultOf (.drw 0 1 0xF) (atI 0xFF2 []) = some (.memReadRange 0xFF2) ∧
    faultOf (.load 0) (atI 0xFFF []) = none ∧ faultOf (.load 1) (atI 0xFFF []) = some (.memReadRange 0xFFF) ∧
    faultOf (.bcd 0) (atI 0xFFD []) = none ∧ faultOf (.bcd 0) (atI 0xFFE []) = some (.memWriteRange 0xFFE) ∧
    faultOf (.dump 0xF) (atI 0xFF0 []) = none ∧ faultOf (.dump 0xF) (atI 0xFF1 []) = some (.memWriteRange 0xFF1) ∧
    faultOf (.call 0) (depth 15) = none ∧ faultOf (.call 0) (depth 16) = some (.stackOverflow 0x200) ∧
    faultOf .ret (depth 1) = none ∧ faultOf .ret (depth 0) = some (.stackUnderflow 0x200) ∧
    faultOf .cls (depth 16) = none ∧
    State.reset.fault = none ∧ (State.reset.latch (.fetchRange 0xFFFF)).fault = some (.fetchRange 0xFFFF) ∧
    (State.reset.latch (.memReadRange 0xFFF)).fault = some (.memReadRange 0xFFF) ∧
    (State.reset.latch (.memWriteRange 0xFFE)).fault = some (.memWriteRange 0xFFE) ∧
    (State.reset.latch (.stackOverflow 0xFFE)).fault = some (.stackOverflow 0xFFE) ∧
    (State.reset.latch (.stackUnderflow 0)).fault = some (.stackUnderflow 0) := by decide

/-- The lowest, an odd and the highest `pc` a fetch reads from. -/
theorem witness_FetchIsBigEndian :
    (State.reset.jump 0).pc.toNat ≤ 0xFFE ∧ (State.reset.jump 0x201).pc.toNat ≤ 0xFFE ∧ (State.reset.jump 0xFFE).pc.toNat ≤ 0xFFE := by
  decide

/-- A self-jump at 0x200, and one at 0xFFE. -/
theorem witness_EndedProgramStaysEnded :
    (withWord State.reset 0x1200).fault = none ∧ (withWord State.reset 0x1200).ended = true ∧
    (withWord (State.reset.jump 0xFFE) 0x1FFE).ended = true := by decide

/-- Every instruction of both groups answers a next state, with `x = F` among the operands. -/
theorem witness_RegisterInstructionsFrame :
    (∀ i ∈ [Instr.ldByte 0xF 1, .addByte 0xF 1, .ldReg 0xF 2, .orReg 0xF 2, .andReg 0xF 2, .xorReg 0xF 2, .rnd 0xF 1, .ldFromDT 0xF],
      ∃ t, exec i counted = .next t) ∧
    (∀ i ∈ [Instr.addReg 1 0xF, .subReg 1 0xF, .shr 1 0xF, .subnReg 1 0xF, .shl 1 0xF], ∃ t, exec i counted = .next t) := by
  constructor <;> intro i hi <;> simp only [List.mem_cons, List.not_mem_nil, or_false] at hi
  · rcases hi with h | h | h | h | h | h | h | h <;> subst h <;> exact ⟨_, rfl⟩
  · rcases hi with h | h | h | h | h <;> subst h <;> exact ⟨_, rfl⟩

/-- The last call that has room, the last return that finds an entry. -/
theorem witness_CallAndReturnFrame :
    (faultOf (.call 0x345) (depth 15) = none ∧ ∃ t, exec (.call 0x345) (depth 15) = .next t) ∧
    (faultOf .ret (depth 1) = none ∧ ∃ t, exec .ret (depth 1) = .next t) :=
  ⟨⟨by decide, _, rfl⟩, ⟨by decide, _, rfl⟩⟩

theorem witness_JumpSkipIndexTimerAndWaitFrame :
    (∀ i ∈ [Instr.jp 0xFFF, .jpV0 0xFFF, .seByte 1 0x11, .sneByte 1 0x11, .seReg 1 1, .sneReg 1 1, .skp 0, .sknp 0, .ldI 0xFFF,
      .addI 0xF, .ldFont 0xF, .ldToDT 0xF, .ldToST 0xF, .waitKey 0xF], ∃ t, exec i counted = .next t) := by
  intro i hi
  simp only [List.mem_cons, List.not_mem_nil, or_false] at hi
  rcases hi with h | h | h | h | h | h | h | h | h | h | h | h | h | h <;> subst h <;> exact ⟨_, rfl⟩

/-- Each at the highest `I` that does not fault. -/
theorem witness_MemoryInstructionsFrame :
    (faultOf (.bcd 0xF) (counted.setI 0xFFD) = none ∧ ∃ t, exec (.bcd 0xF) (counted.setI 0xFFD) = .next t) ∧
    (faultOf (.dump 0xF) (counted.setI 0xFF0) = none ∧ ∃ t, exec (.dump 0xF) (counted.setI 0xFF0) = .next t) ∧
    (faultOf (.load 0xF) (counted.setI 0xFF0) = none ∧ ∃ t, exec (.load 0xF) (counted.setI 0xFF0) = .next t) :=
  ⟨⟨by decide, _, rfl⟩, ⟨by decide, _, rfl⟩, ⟨by decide, _, rfl⟩⟩

theorem witness_DisplayInstructionsFrame :
    (∃ t, exec .cls (lit [(4, 3)]) = .next t) ∧
    (faultOf (.drw 0 1 0) (atI 0xFFFF []) = none ∧ ∃ t, exec (.drw 0 1 0) (atI 0xFFFF []) = .next t) ∧
    (faultOf (.drw 0 1 2) (atI 0xFFE [0xFF, 0x0F]) = none ∧ ∃ t, exec (.drw 0 1 2) (atI 0xFFE [0xFF, 0x0F]) = .next t) :=
  ⟨⟨_, rfl⟩, ⟨by decide, _, rfl⟩, ⟨by decide, _, rfl⟩⟩

theorem witness_CallPushesTheNextAddress :
    (depth 0).sp.val < 16 ∧ (depth 15).sp.val < 16 ∧ (depth 16).sp.val = 16 := by decide

theorem witness_ReturnPopsTheTop : 0 < (depth 16).sp.val ∧ 0 < (depth 1).sp.val ∧ (depth 0).sp.val = 0 := by decide

/-- The state after the call itself, with its registers and memory changed, meets the inner hypotheses. -/
theorem witness_CallThenReturnComesBack :
    (depth 15).sp.val < 16 ∧ ∃ t, exec (.call 0x345) (depth 15) = .next t ∧
      ((t.setV 1 7).setMem [(0x300, 1)]).stack = t.stack ∧ ((t.setV 1 7).setMem [(0x300, 1)]).sp = t.sp :=
  ⟨by decide, _, rfl, rfl, rfl⟩

/-- Key 15 pressed; key 0 pressed; the code 16, never pressed though every key is; key 15 not pressed. -/
theorem witness_KeySkips :
    State.KeyDown { State.reset.setV 1 0x0F with keys := 0x8000 } 1 ∧ State.KeyDown { State.reset with keys := 1 } 1 ∧
    ¬ State.KeyDown { State.reset.setV 1 0x10 with keys := 0xFFFF } 1 ∧
    ¬ State.KeyDown { State.reset.setV 1 0x0F with keys := 0x7FFF } 1 := by decide

/-- `r ≠ x` and its only exception, for the statements on one destination register. -/
theorem witness_LoadsAndLogicWriteVx : (0xF#4 ≠ 0x0#4) ∧ (0x0#4 ≠ 0xF#4) := by decide

theorem witness_AddByteWrapsWithoutAFlag :
    0x7102#16 &&& 0xF000#16 = 0x7000#16 ∧ 0x7FFF#16 &&& 0xF000#16 = 0x7000#16 ∧ (0xF#4 ≠ 0x1#4) ∧ (0x1#4 ≠ regF) := by decide

theorem witness_RandomIsMaskedByKk : (0xF#4 ≠ 0x1#4) ∧ (0x1#4 ≠ regF) := by decide

theorem witness_AddRegSetsTheCarryLast : (0xE#4 ≠ regF) ∧ ¬ (0xF#4 ≠ regF) := by decide

/-- The four aliasing cases of decision D9's table. -/
theorem witness_SubRegWritesTheFlagFirst :
    (0xE#4 ≠ regF ∧ 0x0#4 ≠ regF) ∧ (0xE#4 ≠ regF ∧ 0xF#4 = regF) ∧ (0xF#4 = regF ∧ 0xE#4 ≠ regF) ∧
      (0xF#4 = regF ∧ 0xF#4 = regF) := by decide

theorem witness_SubnRegWritesTheFlagFirst :
    (0xE#4 ≠ regF ∧ 0x0#4 ≠ regF) ∧ (0xE#4 ≠ regF ∧ 0xF#4 = regF) ∧ (0xF#4 = regF ∧ 0xE#4 ≠ regF) ∧
      (0xF#4 = regF ∧ 0xF#4 = regF) := by decide

theorem witness_ShiftsMoveOneBitIntoVF : (0xE#4 ≠ regF) ∧ (0xF#4 = regF) := by decide

theorem witness_ShiftsIgnoreTheYField : 0x2#4 ≠ 0x1#4 ∧ 0x2#4 ≠ regF := by decide

/-- `I + 2` at 0xFFF and at 0x1000. -/
theorem witness_BcdStoresThreeDigits :
    0xFF33#16 &&& 0xF0FF#16 = 0xF033#16 ∧
    (atI 0xFFD []).i.toNat + 2 ≤ 0xFFF ∧ (atI 0xFFE []).i.toNat + 2 > 0xFFF ∧ (atI 0xFFFF []).i.toNat + 2 > 0xFFF := by decide

/-- `I + x` at 0xFFF and at 0x1000, for `x` 0 and 15. -/
theorem witness_DumpStoresV0ToVx :
    0xFF55#16 &&& 0xF0FF#16 = 0xF055#16 ∧
    (atI 0xFF0 []).i.toNat + (0xF#4).toNat ≤ 0xFFF ∧ (atI 0xFFF []).i.toNat + (0#4).toNat ≤ 0xFFF ∧
    (atI 0xFF1 []).i.toNat + (0xF#4).toNat > 0xFFF ∧ (atI 0x1000 []).i.toNat + (0#4).toNat > 0xFFF := by decide

theorem witness_LoadFillsV0ToVx :
    0xFF65#16 &&& 0xF0FF#16 = 0xF065#16 ∧
    (atI 0xFF0 []).i.toNat + (0xF#4).toNat ≤ 0xFFF ∧ (atI 0xFFF []).i.toNat + (0#4).toNat ≤ 0xFFF ∧
    (atI 0xFF1 []).i.toNat + (0xF#4).toNat > 0xFFF ∧ (atI 0x1000 []).i.toNat + (0#4).toNat > 0xFFF ∧
    ((3#4).toNat ≤ (3#4).toNat ∧ (3#4).toNat < (4#4).toNat) := by decide

theorem witness_DumpThenLoadRestoresRegisters :
    (atI 0xFF0 []).i.toNat + (0xF#4).toNat ≤ 0xFFF ∧ (0xF#4).toNat ≤ (0xF#4).toNat := by decide

/-- No row at any `I`; fifteen rows that end at 0xFFF. -/
theorem witness_DrawChangesExactlyTheCoveredPixels :
    ((0#4 : Nibble) = 0#4 ∨ (atI 0xFFFF []).i.toNat + (0#4).toNat ≤ 0x1000) ∧
    ((0xF#4 : Nibble) = 0#4 ∨ (atI 0xFF1 []).i.toNat + (0xF#4).toNat ≤ 0x1000) := by decide

theorem witness_DrawingTwiceRestoresTheCanvas :
    (0x0#4 ≠ regF ∧ 0xE#4 ≠ regF ∧ ((0#4 : Nibble) = 0#4 ∨ (atI 0xFFFF []).i.toNat + (0#4).toNat ≤ 0x1000)) ∧
    ((0xF#4 : Nibble) = 0#4 ∨ (atI 0xFF1 []).i.toNat + (0xF#4).toNat ≤ 0x1000) := by decide

theorem witness_TimerInstructions : (0xF#4 ≠ 0x3#4) := by decide

/-- The first step from the reset state with nothing placed: the zero word at 0x200 is unrecognised, and `pc` goes on. -/
theorem test_reset_first_step : (after (step State.reset) State.reset).pc = 0x202 := by decide

end Sys2Proof.Tests
end

section
/-! The proofs of the family 20_memory.md: fetch is big-endian (R52), and the call stack is not memory (R65). -/

namespace Sys2Proof.Machine

/-! ### Fetch (20_memory.md R52) -/

@[simp] theorem highByte_wordOfBytes (hi lo : Byte) : highByte (wordOfBytes hi lo) = hi := by
  apply BitVec.eq_of_toNat_eq
  rw [highByte_toNat, wordOfBytes_toNat]; omega

@[simp] theorem lowByte_wordOfBytes (hi lo : Byte) : lowByte (wordOfBytes hi lo) = lo := by
  apply BitVec.eq_of_toNat_eq
  rw [lowByte_toNat, wordOfBytes_toNat]; omega

/-- Where `pc` is in range, fetch answers the word of the two bytes there. -/
theorem fetch_of_pc_le {s : State} (hpc : s.pc.toNat ≤ 0xFFE) :
    fetch s = some (wordOfBytes (s.mem.read s.pc.toNat) (s.mem.read (s.pc.toNat + 1))) :=
  if_neg (by omega)

/-- A word that lies at `pc`, high byte first, is the word fetched. -/
theorem fetch_of_bytes {s : State} {w : Word} (hpc : s.pc.toNat ≤ 0xFFE) (hi : s.mem.read s.pc.toNat = highByte w)
    (lo : s.mem.read (s.pc.toNat + 1) = lowByte w) : fetch s = some w := by
  rw [fetch_of_pc_le hpc, hi, lo, wordOfBytes_bytes]

/-- The instruction at `pc` is what the fetched word decodes to. -/
theorem instrAtPc_of_fetch {s : State} {w : Word} (h : fetch s = some w) : s.instrAtPc = decodeWord w := by
  rw [← fetch_bind_decodeWord, h, Option.bind_some]

/-- Settles O30: the two bytes of the fetched word are those at `pc` and `pc + 1`, and two stores put them there. -/
theorem fetchIsBigEndian : Obligations.FetchIsBigEndian := by
  intro s hpc
  refine ⟨⟨_, fetch_of_pc_le hpc, highByte_wordOfBytes _ _, lowByte_wordOfBytes _ _⟩, fun w => ?_⟩
  intro t
  have hi : t.mem.read t.pc.toNat = highByte w := by
    show ((s.mem.write s.pc.toNat (highByte w)).write (s.pc.toNat + 1) _).read s.pc.toNat = _
    rw [Memory.read_write_other _ _ (by omega), Memory.read_write_same]
  have lo : t.mem.read (t.pc.toNat + 1) = lowByte w := Memory.read_write_same _ _ _
  have hf : fetch t = some w := fetch_of_bytes hpc hi lo
  exact ⟨hf, instrAtPc_of_fetch hf⟩

/-! ### 2nnn and 00EE, one equation per range of SP (41_control_flow.md R102, R103) -/

theorem exec_call_of_room (nnn : Addr) {s : State} (room : s.sp.val < 16) :
    exec (.call nnn) s = .next ((s.push (s.pc + 2#16) room).jump (zextAddr nnn)) :=
  dif_pos room

theorem exec_call_of_full (nnn : Addr) {s : State} (full : ¬ s.sp.val < 16) :
    exec (.call nnn) s = .next (s.latch (.stackOverflow s.pc)) :=
  dif_neg full

theorem exec_ret_of_used {s : State} (used : 0 < s.sp.val) : exec .ret s = .next (s.pop.jump (s.top used)) :=
  dif_pos used

theorem exec_ret_of_empty {s : State} (empty : ¬ 0 < s.sp.val) :
    exec .ret s = .next (s.latch (.stackUnderflow s.pc)) :=
  dif_neg empty

/-- 2nnn works alike over every memory, keeps it, and latches at most a stack overflow. -/
theorem exec_call_memory {nnn : Addr} {s t : State} (h : exec (.call nnn) s = .next t) :
    t.mem = s.mem ∧ (∀ m, exec (.call nnn) { s with mem := m } = .next { t with mem := m }) ∧
      (t.fault = s.fault ∨ t.fault = some (.stackOverflow s.pc)) := by
  by_cases room : s.sp.val < 16
  · rw [exec_call_of_room nnn room] at h
    cases h
    exact ⟨rfl, fun m => exec_call_of_room nnn (s := { s with mem := m }) room, .inl rfl⟩
  · rw [exec_call_of_full nnn room] at h
    cases h
    exact ⟨rfl, fun m => exec_call_of_full nnn (s := { s with mem := m }) room, .inr rfl⟩

/-- 00EE works alike over every memory, keeps it, and latches at most a stack underflow. -/
theorem exec_ret_memory {s t : State} (h : exec .ret s = .next t) :
    t.mem = s.mem ∧ (∀ m, exec .ret { s with mem := m } = .next { t with mem := m }) ∧
      (t.fault = s.fault ∨ t.fault = some (.stackUnderflow s.pc)) := by
  by_cases used : 0 < s.sp.val
  · rw [exec_ret_of_used used] at h
    cases h
    exact ⟨rfl, fun m => exec_ret_of_used (s := { s with mem := m }) used, .inl rfl⟩
  · rw [exec_ret_of_empty used] at h
    cases h
    exact ⟨rfl, fun m => exec_ret_of_empty (s := { s with mem := m }) used, .inr rfl⟩

/-- 00EE writes no entry of the stack. -/
theorem exec_ret_stack {s t : State} (h : exec .ret s = .next t) : t.stack = s.stack := by
  by_cases used : 0 < s.sp.val
  · rw [exec_ret_of_used used] at h
    cases h; rfl
  · rw [exec_ret_of_empty used] at h
    cases h; rfl

/-! ### Operations that do the same whatever the stack holds (20_memory.md R65) -/

/-- `STACK <- entries; SP <- n`. -/
def State.withStack (s : State) (entries : Vector Word 16) (n : Fin 17) : State := { s with stack := entries, sp := n }

/-- The operation commutes with replacing the stack: it neither reads nor writes an entry or SP. -/
def IgnoresStack (f : State → Result) : Prop :=
  ∀ (s t : State) (entries : Vector Word 16) (n : Fin 17), f s = .next t →
    f (s.withStack entries n) = .next (t.withStack entries n)

/-- An operation that ignores the stack keeps it: replace the stack by itself. -/
theorem IgnoresStack.keeps {f : State → Result} (hf : IgnoresStack f) {s t : State} (h : f s = .next t) :
    t.stack = s.stack ∧ t.sp = s.sp := by
  have ht : Host.Outcome.next t = (.next (t.withStack s.stack s.sp) : Result) := h.symm.trans (hf s t s.stack s.sp h)
  injection ht with ht
  exact ⟨(congrArg State.stack ht :), (congrArg State.sp ht :)⟩

theorem IgnoresStack.next {g : State → State}
    (hg : ∀ s entries n, g (s.withStack entries n) = (g s).withStack entries n) :
    IgnoresStack (fun s => .next (g s)) := by
  intro s t entries n h
  cases h
  exact congrArg Host.Outcome.next (hg s entries n)

theorem ignoresStack_raiseFault {f : State → Fault} (hf : ∀ s entries n, f (s.withStack entries n) = f s) :
    IgnoresStack (fun s => raiseFault (f s) s) :=
  IgnoresStack.next (fun s entries n => by rw [hf]; rfl)

/-- A choice between two operations by a condition that does not read the stack. -/
theorem IgnoresStack.ite {c : State → Bool} {f g : State → Result} (hc : ∀ s entries n, c (s.withStack entries n) = c s)
    (hf : IgnoresStack f) (hg : IgnoresStack g) : IgnoresStack (fun s => if c s then f s else g s) := by
  intro s t entries n h
  simp only [hc] at h ⊢
  split at h
  · next hcs => rw [if_pos hcs]; exact hf s t entries n h
  · next hcs => rw [if_neg hcs]; exact hg s t entries n h

theorem ignoresStack_skipIf {c : State → Bool} (hc : ∀ s entries n, c (s.withStack entries n) = c s) :
    IgnoresStack (fun s => .next (s.skipIf (c s))) :=
  IgnoresStack.next (fun s entries n => by rw [hc, State.skipIf_eq_jump, State.skipIf_eq_jump]; rfl)

theorem ignoresStack_storeAtI {bytes : State → List Byte}
    (hb : ∀ s entries n, bytes (s.withStack entries n) = bytes s) : IgnoresStack (fun s => storeAtI (bytes s) s) :=
  IgnoresStack.ite (fun s entries n => by rw [hb]; rfl) (ignoresStack_raiseFault fun _ _ _ => rfl)
    (IgnoresStack.next fun s entries n => by rw [hb]; rfl)

theorem State.setVs_withStack (s : State) (k : Nat) (bytes : List Byte) (entries : Vector Word 16) (n : Fin 17) :
    (s.withStack entries n).setVs k bytes = (s.setVs k bytes).withStack entries n := by
  induction bytes generalizing s k with
  | nil => rfl
  | cons b rest ih => exact ih (s.setV (BitVec.ofNat 4 k) b) (k + 1)

theorem ignoresStack_execLoad (x : Nibble) : IgnoresStack (execLoad x) :=
  IgnoresStack.ite (fun _ _ _ => rfl) (ignoresStack_raiseFault fun _ _ _ => rfl)
    (IgnoresStack.next fun s entries n => congrArg State.advance (s.setVs_withStack 0 _ entries n))

theorem ignoresStack_execDrw (x y n : Nibble) : IgnoresStack (execDrw x y n) :=
  IgnoresStack.ite (fun _ _ _ => rfl) (ignoresStack_raiseFault fun _ _ _ => rfl) (IgnoresStack.next fun _ _ _ => rfl)

/-- Every instruction but 2nnn and 00EE ignores the stack. -/
theorem exec_ignoresStack (i : Instr) (hret : i ≠ .ret) (hcall : ∀ nnn, i ≠ .call nnn) : IgnoresStack (exec i) := by
  cases i with
  | ret => exact absurd rfl hret
  | call nnn => exact absurd rfl (hcall nnn)
  | seByte | sneByte | seReg | sneReg | skp | sknp => exact ignoresStack_skipIf fun _ _ _ => rfl
  | bcd | dump => exact ignoresStack_storeAtI fun _ _ _ => rfl
  | load x => exact ignoresStack_execLoad x
  | drw x y n => exact ignoresStack_execDrw x y n
  | cls | jp | jpV0 | ldI | addI | ldFont | ldFromDT | ldToDT | ldToST | waitKey
  | ldByte | addByte | ldReg | orReg | andReg | xorReg | addReg | subReg | shr | subnReg | shl | rnd =>
    exact IgnoresStack.next fun _ _ _ => rfl

/-- Settles O27: 2nnn and 00EE by their equations, every other instruction because it ignores the stack and so keeps it. -/
theorem stackIsNotMemory : Obligations.StackIsNotMemory := by
  intro i s t h
  by_cases hret : i = .ret
  · subst hret
    obtain ⟨hmem, hany, hfault⟩ := exec_ret_memory h
    exact ⟨fun hne => absurd (exec_ret_stack h) hne, fun _ => .inl rfl,
      fun _ => ⟨hmem, hany, hfault.imp_right .inr⟩, fun hne => absurd rfl hne⟩
  · by_cases hcall : ∃ nnn, i = .call nnn
    · obtain ⟨nnn, rfl⟩ := hcall
      obtain ⟨hmem, hany, hfault⟩ := exec_call_memory h
      exact ⟨fun _ => ⟨nnn, rfl⟩, fun _ => .inr ⟨nnn, rfl⟩,
        fun _ => ⟨hmem, hany, hfault.imp_right .inl⟩, fun _ hne => absurd rfl (hne nnn)⟩
    · have hi : IgnoresStack (exec i) := exec_ignoresStack i hret (not_exists.1 hcall)
      obtain ⟨hstack, hsp⟩ := hi.keeps h
      exact ⟨fun hne => absurd hstack hne, fun hne => absurd hsp hne,
        fun hstk => (hstk.elim hret hcall).elim, fun _ _ entries n => hi s t entries n h⟩

end Sys2Proof.Machine
end

section
/-! The proofs of the family 40_step_cycle.md: `pixels_changed` is exact (R91), and the snapshot shows the state after the
step (R97). -/

namespace Sys2Proof.Machine

/-! ### What happens to the canvas and the dirty flag, as relations of the states before and after -/

/-- The grid and the dirty flag are as before. -/
abbrev State.SameCanvas (s t : State) : Prop := t.pix = s.pix ∧ t.dirty = s.dirty

/-- Some pixel differs. -/
abbrev State.CanvasChanged (s t : State) : Prop := ∃ yy xx, pixelAt t.pix yy xx ≠ pixelAt s.pix yy xx

/-- The dirty flag becomes true where a pixel changed, and only there; it is never made false (44_display.md R141, R142). -/
abbrev State.MarksChange (s t : State) : Prop := t.dirty = true ↔ s.dirty = true ∨ s.CanvasChanged t

theorem pix_eq_of_not_canvasChanged {s t : State} (h : ¬ s.CanvasChanged t) : t.pix = s.pix :=
  canvas_ext _ _ fun yy xx => by_contra fun hne => h ⟨yy, xx, hne⟩

/-! ### The instructions that leave the canvas alone -/

theorem State.skipIf_sameCanvas (s : State) (c : Bool) : s.SameCanvas (s.skipIf c) := by
  rw [s.skipIf_eq_jump]
  exact ⟨rfl, rfl⟩

theorem State.setVs_sameCanvas (s : State) (k : Nat) (bytes : List Byte) : s.SameCanvas (s.setVs k bytes) := by
  rw [s.setVs_of_v]
  exact ⟨rfl, rfl⟩

theorem storeAtI_sameCanvas {bytes : List Byte} {s t : State} (h : storeAtI bytes s = .next t) : s.SameCanvas t := by
  obtain ⟨-, -, e⟩ | ⟨-, e⟩ := storeAtI_cases bytes s <;> cases e.symm.trans h <;> exact ⟨rfl, rfl⟩

/-- Fx65 either faults with nothing loaded or loads every register and advances (43_index_memory.md R135). -/
theorem execLoad_cases (x : Nibble) (s : State) :
    (outOfRange s.i (x.toNat + 1) = true ∧ execLoad x s = .next (s.latch (.memReadRange s.i))) ∨
    (outOfRange s.i (x.toNat + 1) = false ∧ execLoad x s = .next (s.setVs 0 (s.bytesAtI (x.toNat + 1))).advance) := by
  unfold execLoad
  cases outOfRange s.i (x.toNat + 1)
  · exact .inr ⟨rfl, rfl⟩
  · exact .inl ⟨rfl, rfl⟩

theorem execLoad_sameCanvas {x : Nibble} {s t : State} (h : execLoad x s = .next t) : s.SameCanvas t := by
  obtain ⟨-, e⟩ | ⟨-, e⟩ := execLoad_cases x s <;> cases e.symm.trans h
  · exact ⟨rfl, rfl⟩
  · exact s.setVs_sameCanvas 0 _

theorem exec_call_sameCanvas {nnn : Addr} {s t : State} (h : exec (.call nnn) s = .next t) : s.SameCanvas t := by
  by_cases room : s.sp.val < 16
  · cases (exec_call_of_room nnn room).symm.trans h; exact ⟨rfl, rfl⟩
  · cases (exec_call_of_full nnn room).symm.trans h; exact ⟨rfl, rfl⟩

theorem exec_ret_sameCanvas {s t : State} (h : exec .ret s = .next t) : s.SameCanvas t := by
  by_cases used : 0 < s.sp.val
  · cases (exec_ret_of_used used).symm.trans h; exact ⟨rfl, rfl⟩
  · cases (exec_ret_of_empty used).symm.trans h; exact ⟨rfl, rfl⟩

/-- Every instruction but 00E0 and Dxyn leaves the grid and the dirty flag as they are. -/
theorem exec_sameCanvas {i : Instr} {s t : State} (hcls : i ≠ .cls) (hdrw : ∀ x y n, i ≠ .drw x y n)
    (h : exec i s = .next t) : s.SameCanvas t := by
  cases i with
  | cls => exact absurd rfl hcls
  | drw x y n => exact absurd rfl (hdrw x y n)
  | call nnn => exact exec_call_sameCanvas h
  | ret => exact exec_ret_sameCanvas h
  | seByte | sneByte | seReg | sneReg | skp | sknp => cases h; exact s.skipIf_sameCanvas _
  | bcd | dump => exact storeAtI_sameCanvas h
  | load x => exact execLoad_sameCanvas h
  | jp | jpV0 | ldI | addI | ldFont | ldFromDT | ldToDT | ldToST | waitKey
  | ldByte | addByte | ldReg | orReg | andReg | xorReg | addReg | subReg | shr | subnReg | shl | rnd =>
    cases h; exact ⟨rfl, rfl⟩

/-! ### 00E0 and Dxyn -/

/-- 00E0 changes the lit pixels, and marks the change. -/
theorem exec_cls_marksChange {s t : State} (h : exec .cls s = .next t) : s.MarksChange t := by
  cases h
  show (s.dirty || decide (s.pix ≠ blankCanvas)) = true ↔
    s.dirty = true ∨ ∃ yy xx, pixelAt blankCanvas yy xx ≠ pixelAt s.pix yy xx
  simp only [Bool.or_eq_true, decide_eq_true_eq, ne_blank_iff, pixelAt_blank, ne_eq, Bool.false_eq, Bool.not_eq_false]

/-- Dxyn either faults with nothing drawn or draws its sprite, sets VF to the collision and advances (44_display.md R144). -/
theorem execDrw_cases (x y n : Nibble) (s : State) :
    (outOfRange s.i n.toNat = true ∧ execDrw x y n s = .next (s.latch (.memReadRange s.i))) ∨
    (outOfRange s.i n.toNat = false ∧ ∃ d, d = drawSprite (s.getV x) (s.getV y) (s.bytesAtI n.toNat) s ∧
      execDrw x y n s = .next ((s.setCanvas d.pix d.dirty).setV regF (flagByte d.collision)).advance) := by
  unfold execDrw
  cases outOfRange s.i n.toNat
  · exact .inr ⟨rfl, _, rfl, rfl⟩
  · exact .inl ⟨rfl, rfl⟩

/-- A sprite of at most 32 rows covers no pixel twice, so what it covers it changes, and it marks the change. -/
theorem drawSprite_marksChange {x0 y0 : Byte} {sprite : List Byte} {s t : State} (hl : sprite.length ≤ 32)
    (hpix : t.pix = (drawSprite x0 y0 sprite s).pix) (hdirty : t.dirty = (drawSprite x0 y0 sprite s).dirty) :
    s.MarksChange t := by
  simp only [State.MarksChange, State.CanvasChanged, hpix, hdirty, drawSprite_dirty, drawSprite_changed _ _ _ _ hl]

theorem exec_drw_marksChange {x y n : Nibble} {s t : State} (h : exec (.drw x y n) s = .next t) : s.MarksChange t := by
  obtain ⟨-, e⟩ | ⟨-, d, rfl, e⟩ := execDrw_cases x y n s <;> cases e.symm.trans h
  · simp [State.MarksChange]
  · have hl : (s.bytesAtI n.toNat).length ≤ 32 := by
      rw [State.bytesAtI, Memory.readBytes_length]
      omega
    exact drawSprite_marksChange hl rfl rfl

/-! ### A whole STEP -/

/-- The next instruction is a 00E0 or a Dxyn. -/
abbrev State.DrawsNext (s : State) : Prop := s.instrAtPc = some .cls ∨ ∃ x y n, s.instrAtPc = some (.drw x y n)

theorem deliverKey_sameCanvas (s : State) : s.SameCanvas (deliverKey s) := by
  obtain ⟨-, e⟩ | ⟨b, -, -, -, e⟩ := deliverKey_cases s <;> rw [e] <;> exact ⟨rfl, rfl⟩

/-- Phases 2 and 3 leave the canvas alone, or run a 00E0 or Dxyn, which marks what it changes. -/
theorem cycle_canvas_cases {s t : State} (h : cycle s = .next t) :
    s.SameCanvas t ∨ (s.waiting = false ∧ s.DrawsNext ∧ s.MarksChange t) := by
  obtain ⟨-, e⟩ | ⟨-, -, -, e⟩ | ⟨-, -, -, e⟩ | ⟨hw, -, i, hi, e⟩ := cycle_cases_instrAtPc s
  · cases e.symm.trans h; exact .inl (deliverKey_sameCanvas s)
  · cases e.symm.trans h; exact .inl ⟨rfl, rfl⟩
  · cases e.symm.trans h; exact .inl ⟨rfl, rfl⟩
  · have hexec : exec i s = .next t := e.symm.trans h
    by_cases hcls : i = .cls
    · subst hcls
      exact .inr ⟨hw, .inl hi, exec_cls_marksChange hexec⟩
    · by_cases hdrw : ∃ x y n, i = .drw x y n
      · obtain ⟨x, y, n, rfl⟩ := hdrw
        exact .inr ⟨hw, .inr ⟨x, y, n, hi⟩, exec_drw_marksChange hexec⟩
      · exact .inl (exec_sameCanvas hcls (fun x y n e => hdrw ⟨x, y, n, e⟩) hexec)

/-- With the dirty flag cleared first, it tells after phases 2 and 3 whether a 00E0 or Dxyn changed a pixel. -/
theorem cycle_dirty_iff {s t : State} (hclear : s.dirty = false) (h : cycle s = .next t) :
    (t.dirty = true ↔ s.waiting = false ∧ s.DrawsNext ∧ s.CanvasChanged t) ∧ (t.dirty = false → t.pix = s.pix) := by
  obtain ⟨hpix, hdirty⟩ | ⟨hw, hdraws, hmarks⟩ := cycle_canvas_cases h
  · simp [State.CanvasChanged, hpix, hdirty, hclear]
  · have hiff : t.dirty = true ↔ s.CanvasChanged t := by simpa [State.MarksChange, hclear] using hmarks
    exact ⟨⟨fun hd => ⟨hw, hdraws, hiff.1 hd⟩, fun ⟨_, _, hc⟩ => hiff.2 hc⟩,
      fun hd => pix_eq_of_not_canvasChanged fun hc => by simp [hiff.2 hc] at hd⟩

/-- Settles O11: phase 1 clears the flag and touches no pixel, and phases 2 and 3 then set it exactly. -/
theorem pixelsChangedIsExact : Obligations.PixelsChangedIsExact := by
  intro s t keys rnd hfault h
  obtain ⟨hne, -⟩ | ⟨-, e⟩ := opStep_cases keys rnd s
  · exact absurd hfault hne
  · exact cycle_dirty_iff (s := s.begin keys rnd) (s.begin_dirty keys rnd) (e.symm.trans h)

/-! ### The snapshot (40_step_cycle.md R97) -/

theorem snapshot_of_no_fault {t : State} (h : t.fault = none) : t.snapshot = some t.outputs :=
  if_neg (by simp [State.faulted, h])

/-- Settles O12: with no fault latched the snapshot is the outputs of the state the step ended in. -/
theorem snapshotShowsTheStateAfterTheStep : Obligations.SnapshotShowsTheStateAfterTheStep := by
  intro s t keys rnd _ hfault
  exact ⟨t.outputs, snapshot_of_no_fault hfault, decide_eq_true_iff, fun _ _ => rfl, rfl⟩

end Sys2Proof.Machine
end

section
/-! The proof of the family 42_alu.md: 7xkk adds modulo 256 and writes no flag (R112). -/

namespace Sys2Proof.Machine

/-! ### The words of 7xkk (30_encoding.md R75) -/

/-- The mask F000 keeps the leading nibble. -/
@[simp] theorem nibbleA_and_mask (w : Word) : nibbleA (w &&& 0xF000#16) = nibbleA w := by
  have all : nibbleA 0xF000#16 = BitVec.allOnes 4 := by decide
  calc nibbleA (w &&& 0xF000#16)
      = nibbleA w &&& nibbleA 0xF000#16 := BitVec.extractLsb'_and
    _ = nibbleA w := by rw [all, BitVec.and_allOnes]

theorem decodeWord_of_nibbleA_eq_7 {w : Word} (h : nibbleA w = 0x7#4) :
    decodeWord w = some (.addByte (nibbleB w) (fieldKK w)) := by
  simpa [h] using decodeWord_groups w

/-! ### `V[x] <- b; advance()` -/

/-- Writing one register gives a next state with that value in it, the other registers as they were, and no field changed
but the registers and `pc`. -/
theorem writeReg_effect (x : Nibble) (b : Byte) (s : State) :
    ∃ t, writeReg x b s = .next t ∧ t.getV x = b ∧ (∀ r, r ≠ x → t.getV r = s.getV r) ∧
      t = { s with v := t.v, pc := s.pc + 2#16 } :=
  ⟨_, writeReg_eq x b s, s.setV_getV_same x b, fun _ hr => s.setV_getV_other b hr.symm, rfl⟩

theorem exec_addByte (x : Nibble) (kk : Byte) (s : State) : exec (.addByte x kk) s = writeReg x (s.getV x + kk) s := rfl

/-- Settles O44: the mask fixes the leading nibble, on which the decoder turns, and the meaning writes one register, the sum
of two bytes. -/
theorem addByteWrapsWithoutAFlag : Obligations.AddByteWrapsWithoutAFlag := by
  refine ⟨fun w hw => ?_, fun x kk s => ?_⟩
  · have lead : nibbleA w = 0x7#4 := by rw [← nibbleA_and_mask, hw]; decide
    exact decodeWord_of_nibbleA_eq_7 lead
  · obtain ⟨t, hexec, hsum, hothers, hframe⟩ := writeReg_effect x (s.getV x + kk) s
    exact ⟨t, (exec_addByte x kk s).trans hexec, by rw [hsum, BitVec.toNat_add], hothers, hframe⟩

end Sys2Proof.Machine
end

section
/-! The proofs of the family 43_index_memory.md: Fx33 and Fx55 store at `I` (R133, R134), and Fx65 loads from there
(R135). -/

namespace Sys2Proof.Machine

/-! ### The words of the F rows (30_encoding.md R75) -/

/-- A mask whose leading nibble is all ones keeps the leading nibble. -/
theorem nibbleA_and_of_allOnes (w : Word) {mask : Word} (ones : nibbleA mask = BitVec.allOnes 4) :
    nibbleA (w &&& mask) = nibbleA w := by
  rw [nibbleA, BitVec.extractLsb'_and, ← nibbleA, ← nibbleA, ones, BitVec.and_allOnes]

/-- A mask whose low byte is all ones keeps the low byte. -/
theorem fieldKK_and_of_allOnes (w : Word) {mask : Word} (ones : fieldKK mask = BitVec.allOnes 8) :
    fieldKK (w &&& mask) = fieldKK w := by
  rw [fieldKK, BitVec.extractLsb'_and, ← fieldKK, ← fieldKK, ones, BitVec.and_allOnes]

/-- The mask F0FF keeps all that the decoder selects by in group F, so the pattern tells what the word decodes to. -/
theorem decodeWord_of_mask_F0FF {w pattern : Word} (hw : w &&& 0xF0FF#16 = pattern) (lead : nibbleA pattern = 0xF#4) :
    decodeWord w = decodeF (nibbleB w) (fieldKK pattern) := by
  have hA : nibbleA w = 0xF#4 := by rw [← nibbleA_and_of_allOnes w (mask := 0xF0FF#16) (by decide), hw, lead]
  have hK : fieldKK w = fieldKK pattern := by rw [← fieldKK_and_of_allOnes w (mask := 0xF0FF#16) (by decide), hw]
  simpa [hA, hK] using decodeWord_groups w

/-! ### The three meanings, through the operations they share -/

theorem exec_bcd (x : Nibble) (s : State) : exec (.bcd x) s = storeAtI (bcdDigits (s.getV x)) s := rfl

theorem exec_dump (x : Nibble) (s : State) : exec (.dump x) s = storeAtI (s.regsUpTo x) s := rfl

theorem exec_load (x : Nibble) (s : State) : exec (.load x) s = execLoad x s := rfl

/-! ### A store at `I`, one lemma per range (20_memory.md R56, R57) -/

/-- A store that ends in memory puts each byte at its address, and changes nothing else but `pc`. -/
theorem storeAtI_of_fits {bytes : List Byte} {s : State} (fits : s.i.toNat + bytes.length ≤ 0x1000) :
    ∃ t, storeAtI bytes s = .next t ∧
      (∀ (k : Nat) (hk : k < bytes.length), t.mem.read (s.i.toNat + k) = bytes[k]) ∧
      (∀ a, a < s.i.toNat ∨ s.i.toNat + bytes.length ≤ a → t.mem.read a = s.mem.read a) ∧
      t = { s with mem := t.mem, pc := s.pc + 2#16 } := by
  obtain ⟨-, hout, -⟩ | ⟨-, e⟩ := storeAtI_cases bytes s
  · omega
  · refine ⟨_, e, fun k hk => ?_, fun a ha => ?_, rfl⟩
    · simp [Memory.read_writeBytes, hk]
    · exact Memory.read_writeBytes_outside _ _ (by omega)

/-- A store that ends above 0xFFF latches the fault and writes nothing. -/
theorem storeAtI_of_not_fits {bytes : List Byte} {s : State} (nonempty : bytes.length ≠ 0)
    (out : 0x1000 < s.i.toNat + bytes.length) :
    storeAtI bytes s = .next { s with fault := some (.memWriteRange s.i) } := by
  obtain ⟨-, -, e⟩ | ⟨hin, -⟩ := storeAtI_cases bytes s
  · exact e
  · omega

/-! ### Fx33 (43_index_memory.md R133) -/

@[simp] theorem bcdDigits_length (b : Byte) : (bcdDigits b).length = 3 := rfl

/-- The three bytes as numbers: hundreds, tens, ones. -/
theorem bcdDigits_getElem_toNat (b : Byte) :
    ((bcdDigits b)[0]'(by simp)).toNat = b.toNat / 100 ∧ ((bcdDigits b)[1]'(by simp)).toNat = b.toNat / 10 % 10 ∧
      ((bcdDigits b)[2]'(by simp)).toNat = b.toNat % 10 := by
  simp [bcdDigits]

/-- Settles O52: the store at `I` of the three digits, which are the quotients and remainders by 100 and 10. -/
theorem bcdStoresThreeDigits : Obligations.BcdStoresThreeDigits := by
  refine ⟨fun w hw => decodeWord_of_mask_F0FF hw (by decide), fun x s => ?_⟩
  have len : (bcdDigits (s.getV x)).length = 3 := bcdDigits_length _
  refine ⟨fun fits => ?_, fun out => ?_⟩
  · obtain ⟨t, hexec, hbytes, hothers, hframe⟩ :=
      storeAtI_of_fits (bytes := bcdDigits (s.getV x)) (s := s) (by omega)
    obtain ⟨hundreds, tens, ones⟩ := bcdDigits_getElem_toNat (s.getV x)
    exact ⟨t, (exec_bcd x s).trans hexec,
      (congrArg BitVec.toNat (hbytes 0 (by omega))).trans hundreds,
      (congrArg BitVec.toNat (hbytes 1 (by omega))).trans tens,
      (congrArg BitVec.toNat (hbytes 2 (by omega))).trans ones,
      fun a ha => hothers a (by omega), hframe⟩
  · rw [exec_bcd, storeAtI_of_not_fits (by omega) (by omega)]

/-! ### Fx55 (43_index_memory.md R134) -/

/-- Settles O53: the store at `I` of the registers up to `V[x]`, byte `r` of which is `V[r]`. -/
theorem dumpStoresV0ToVx : Obligations.DumpStoresV0ToVx := by
  refine ⟨fun w hw => decodeWord_of_mask_F0FF hw (by decide), fun x s => ?_⟩
  have len : (s.regsUpTo x).length = x.toNat + 1 := regsUpTo_length s x
  refine ⟨fun fits => ?_, fun out => ?_⟩
  · obtain ⟨t, hexec, hbytes, hothers, hframe⟩ := storeAtI_of_fits (bytes := s.regsUpTo x) (s := s) (by omega)
    refine ⟨t, (exec_dump x s).trans hexec, fun r hr => ?_, fun a ha => hothers a (by omega), hframe⟩
    rw [hbytes r.toNat (by omega), regsUpTo_getElem]
  · rw [exec_dump, storeAtI_of_not_fits (by omega) (by omega)]

/-! ### Fx65 (43_index_memory.md R135) -/

@[simp] theorem State.bytesAtI_length (s : State) (len : Nat) : (s.bytesAtI len).length = len :=
  s.mem.readBytes_length s.i.toNat len

/-- Each register after the first `len` were loaded from memory at `I`. -/
theorem State.getV_setVs_bytesAtI (s : State) {len : Nat} (q : Nibble) (hl : len ≤ 16) :
    (s.setVs 0 (s.bytesAtI len)).getV q = if q.toNat < len then s.mem.read (s.i.toNat + q.toNat) else s.getV q := by
  rw [State.setVs_getV _ _ _ _ (by simpa using hl)]
  by_cases h : q.toNat < len <;> simp [h, State.bytesAtI, Memory.readBytes_getElem]

/-- A load that ends in memory fills the registers up to `V[x]`, and changes nothing else but `pc`. -/
theorem execLoad_of_fits {x : Nibble} {s : State} (fits : s.i.toNat + x.toNat ≤ 0xFFF) :
    ∃ t, execLoad x s = .next t ∧
      (∀ r, t.getV r = if r.toNat < x.toNat + 1 then s.mem.read (s.i.toNat + r.toNat) else s.getV r) ∧
      t = { s with v := t.v, pc := s.pc + 2#16 } := by
  obtain ⟨hout, -⟩ | ⟨-, e⟩ := execLoad_cases x s
  · rw [outOfRange_eq_true] at hout; omega
  · refine ⟨_, e, fun r => ?_, ?_⟩
    · exact s.getV_setVs_bytesAtI r x.isLt
    · rw [s.setVs_of_v]; rfl

/-- A load that ends above 0xFFF latches the fault and loads nothing. -/
theorem execLoad_of_not_fits {x : Nibble} {s : State} (out : 0xFFF < s.i.toNat + x.toNat) :
    execLoad x s = .next { s with fault := some (.memReadRange s.i) } := by
  obtain ⟨-, e⟩ | ⟨hin, -⟩ := execLoad_cases x s
  · exact e
  · rw [outOfRange_eq_false] at hin; omega

/-- Settles O54: the registers after the load, read on either side of `x`. -/
theorem loadFillsV0ToVx : Obligations.LoadFillsV0ToVx := by
  refine ⟨fun w hw => decodeWord_of_mask_F0FF hw (by decide), fun x s => ⟨fun fits => ?_, execLoad_of_not_fits⟩⟩
  obtain ⟨t, hexec, hregs, hframe⟩ := execLoad_of_fits fits
  refine ⟨t, (exec_load x s).trans hexec, fun r hr => ?_, fun r hr => ?_, hframe⟩
  · rw [hregs, if_pos (by omega)]
  · rw [hregs, if_neg (by omega)]

end Sys2Proof.Machine
end

section
/-! The proof of the family 44_display.md: only 00E0 and Dxyn touch the canvas, and it feeds back through VF alone (R146). -/

namespace Sys2Proof.Machine

/-! ### The operations that touch no pixel -/

theorem opTick_pix (s : State) : (opTick s).pix = s.pix := by
  unfold opTick
  split
  · rfl
  · split <;> rfl

theorem opLoad_pix (bytes : List Byte) (s : State) : (opLoad bytes s).pix = s.pix := by
  unfold opLoad
  split <;> rfl

/-- A STEP that delivers a key, or finds no instruction at `pc`, draws nothing. -/
theorem opStep_pix_of_no_instruction {keys : BitVec 16} {rnd : Byte} {s t : State}
    (hno : s.waiting = true ∨ s.instrAtPc = none) (h : opStep keys rnd s = .next t) : t.pix = s.pix := by
  obtain ⟨-, e⟩ | ⟨-, e⟩ := opStep_cases keys rnd s
  · cases e.symm.trans h; rfl
  · obtain ⟨hpix, -⟩ | ⟨hrun, hdraws, -⟩ := cycle_canvas_cases (e.symm.trans h)
    · exact hpix
    · obtain hwaits | hnone := hno
      · exact absurd (hwaits.symm.trans hrun) (by decide)
      · obtain hcls | ⟨x, y, n, hdrw⟩ := hdraws
        · cases hnone.symm.trans hcls
        · cases hnone.symm.trans hdrw

/-! ### Operations that do the same whatever the canvas holds -/

/-- On another canvas the operation answers the same state, up to the canvas. -/
def IgnoresCanvas (f : State → Result) : Prop :=
  ∀ (s : State) (p : Canvas) (d : Bool), ∃ t p' d', f s = .next t ∧ f (s.setCanvas p d) = .next (t.setCanvas p' d')

/-- It suffices that the next states agree up to the canvas. -/
theorem IgnoresCanvas.next {g : State → State}
    (hg : ∀ s p d, ∃ p' d', g (s.setCanvas p d) = (g s).setCanvas p' d') : IgnoresCanvas (fun s => .next (g s)) := by
  intro s p d
  obtain ⟨p', d', e⟩ := hg s p d
  exact ⟨g s, p', d', rfl, congrArg Host.Outcome.next e⟩

theorem ignoresCanvas_raiseFault {f : State → Fault} (hf : ∀ s p d, f (s.setCanvas p d) = f s) :
    IgnoresCanvas (fun s => raiseFault (f s) s) :=
  IgnoresCanvas.next fun s p d => ⟨p, d, by rw [hf]; rfl⟩

/-- A choice between two operations by a condition that does not read the canvas. -/
theorem IgnoresCanvas.ite {c : State → Bool} {f g : State → Result} (hc : ∀ s p d, c (s.setCanvas p d) = c s)
    (hf : IgnoresCanvas f) (hg : IgnoresCanvas g) : IgnoresCanvas (fun s => if c s then f s else g s) := by
  intro s p d
  simp only [hc]
  cases c s
  · exact hg s p d
  · exact hf s p d

theorem ignoresCanvas_skipIf {c : State → Bool} (hc : ∀ s p d, c (s.setCanvas p d) = c s) :
    IgnoresCanvas (fun s => .next (s.skipIf (c s))) :=
  IgnoresCanvas.next fun s p d => ⟨p, d, by rw [hc, State.skipIf_eq_jump, State.skipIf_eq_jump]; rfl⟩

theorem ignoresCanvas_storeAtI {bytes : State → List Byte} (hb : ∀ s p d, bytes (s.setCanvas p d) = bytes s) :
    IgnoresCanvas (fun s => storeAtI (bytes s) s) :=
  IgnoresCanvas.ite (fun s p d => by rw [hb]; rfl) (ignoresCanvas_raiseFault fun _ _ _ => rfl)
    (IgnoresCanvas.next fun s p d => ⟨p, d, by rw [hb]; rfl⟩)

theorem State.setVs_setCanvas (s : State) (k : Nat) (bytes : List Byte) (p : Canvas) (d : Bool) :
    (s.setCanvas p d).setVs k bytes = (s.setVs k bytes).setCanvas p d := by
  induction bytes generalizing s k with
  | nil => rfl
  | cons b rest ih => exact ih (s.setV (BitVec.ofNat 4 k) b) (k + 1)

theorem ignoresCanvas_execLoad (x : Nibble) : IgnoresCanvas (execLoad x) :=
  IgnoresCanvas.ite (fun _ _ _ => rfl) (ignoresCanvas_raiseFault fun _ _ _ => rfl)
    (IgnoresCanvas.next fun s p d => ⟨p, d, congrArg State.advance (s.setVs_setCanvas 0 _ p d)⟩)

theorem ignoresCanvas_call (nnn : Addr) : IgnoresCanvas (exec (.call nnn)) := by
  intro s p d
  by_cases room : s.sp.val < 16
  · exact ⟨_, p, d, exec_call_of_room nnn room, exec_call_of_room nnn (s := s.setCanvas p d) room⟩
  · exact ⟨_, p, d, exec_call_of_full nnn room, exec_call_of_full nnn (s := s.setCanvas p d) room⟩

theorem ignoresCanvas_ret : IgnoresCanvas (exec .ret) := by
  intro s p d
  by_cases used : 0 < s.sp.val
  · exact ⟨_, p, d, exec_ret_of_used used, exec_ret_of_used (s := s.setCanvas p d) used⟩
  · exact ⟨_, p, d, exec_ret_of_empty used, exec_ret_of_empty (s := s.setCanvas p d) used⟩

/-- Every instruction but Dxyn ignores the canvas: 00E0 writes it, and reads it for the dirty flag alone. -/
theorem exec_ignoresCanvas {i : Instr} (hdrw : ∀ x y n, i ≠ .drw x y n) : IgnoresCanvas (exec i) := by
  cases i with
  | drw x y n => exact absurd rfl (hdrw x y n)
  | cls => exact IgnoresCanvas.next fun _ _ _ => ⟨blankCanvas, _, rfl⟩
  | call nnn => exact ignoresCanvas_call nnn
  | ret => exact ignoresCanvas_ret
  | seByte | sneByte | seReg | sneReg | skp | sknp => exact ignoresCanvas_skipIf fun _ _ _ => rfl
  | bcd | dump => exact ignoresCanvas_storeAtI fun _ _ _ => rfl
  | load x => exact ignoresCanvas_execLoad x
  | jp | jpV0 | ldI | addI | ldFont | ldFromDT | ldToDT | ldToST | waitKey
  | ldByte | addByte | ldReg | orReg | andReg | xorReg | addReg | subReg | shr | subnReg | shl | rnd =>
    exact IgnoresCanvas.next fun _ p d => ⟨p, d, rfl⟩

/-! ### Dxyn -/

/-- Whether Dxyn faults, and what it changes besides the grid, the dirty flag and VF, does not depend on the canvas. -/
theorem exec_drw_setCanvas (x y n : Nibble) (s : State) (p : Canvas) (d : Bool) :
    ∃ t t', exec (.drw x y n) s = .next t ∧ exec (.drw x y n) (s.setCanvas p d) = .next t' ∧
      (∀ r, r ≠ regF → t'.getV r = t.getV r) ∧ t' = { t with pix := t'.pix, dirty := t'.dirty, v := t'.v } := by
  obtain ⟨hout, e⟩ | ⟨hin, d₁, -, e⟩ := execDrw_cases x y n s
  · exact ⟨_, _, e, if_pos hout, fun _ _ => rfl, rfl⟩
  · obtain ⟨hout, -⟩ | ⟨-, d₂, -, e'⟩ := execDrw_cases x y n (s.setCanvas p d)
    · exact absurd (hin.symm.trans hout) Bool.false_ne_true
    · refine ⟨_, _, e, e', fun r hr => ?_, rfl⟩
      simp [State.setV_getV_other, hr.symm]

/-- Settles O26: every instruction but 00E0 and Dxyn keeps the canvas, and every one but Dxyn ignores it. -/
theorem canvasFeedsBackOnlyThroughVF : Obligations.CanvasFeedsBackOnlyThroughVF := by
  refine ⟨fun s => ⟨opTick_pix s, fun bytes => opLoad_pix bytes s, fun _ _ _ => opStep_pix_of_no_instruction⟩,
    fun i s p d => ?_⟩
  by_cases hdrw : ∃ x y n, i = .drw x y n
  · obtain ⟨x, y, n, rfl⟩ := hdrw
    obtain ⟨t, t', h, h', hregs, hframe⟩ := exec_drw_setCanvas x y n s p d
    exact ⟨t, t', h, h', fun _ => .inr ⟨x, y, n, rfl⟩, fun hne => absurd rfl (hne x y n),
      fun _ _ _ _ => ⟨hregs, hframe⟩⟩
  · have hne : ∀ x y n, i ≠ .drw x y n := fun x y n e => hdrw ⟨x, y, n, e⟩
    obtain ⟨t, p', d', h, h'⟩ := exec_ignoresCanvas hne s p d
    refine ⟨t, _, h, h', fun hchanged => .inl (by_contra fun hcls => ?_), fun _ => rfl,
      fun x y n e => absurd e (hne x y n)⟩
    obtain ⟨hpix, hdirty⟩ := exec_sameCanvas hcls hne h
    exact hchanged.elim (absurd hpix) (absurd hdirty)

end Sys2Proof.Machine
end

section
/-! The proof of the family 60_exceptions.md: during a key-wait the timers stand still (R168). -/

namespace Sys2Proof.Machine

/-- Both timers are as before. -/
abbrev State.SameTimers (s t : State) : Prop := t.dt = s.dt ∧ t.st = s.st

/-- `sound_on` depends on the sound timer alone (10_state.md R35). -/
theorem State.SameTimers.soundOn {s t : State} (h : s.SameTimers t) : t.outputs.soundOn = s.outputs.soundOn :=
  congrArg (fun st : Byte => decide (0 < st.toNat)) h.2

/-- TICK does nothing during a key-wait, be a fault latched or not. -/
theorem opTick_of_waiting {s : State} (hw : s.waiting = true) : opTick s = s := by
  simp [opTick, hw]

theorem opLoad_sameTimers (bytes : List Byte) (s : State) : s.SameTimers (opLoad bytes s) := by
  unfold opLoad
  split <;> exact ⟨rfl, rfl⟩

theorem deliverKey_sameTimers (s : State) : s.SameTimers (deliverKey s) := by
  obtain ⟨-, e⟩ | ⟨b, -, -, -, e⟩ := deliverKey_cases s <;> rw [e] <;> exact ⟨rfl, rfl⟩

/-- During a key-wait phases 2 and 3 of STEP are the key delivery, and no instruction runs (40_step_cycle.md R92). -/
theorem cycle_of_waiting {s : State} (hw : s.waiting = true) : cycle s = .next (deliverKey s) :=
  if_pos hw

/-- A STEP that begins during a key-wait writes no timer, also where it delivers a key and so ends the wait. -/
theorem opStep_sameTimers_of_waiting {keys : BitVec 16} {rnd : Byte} {s t : State} (hw : s.waiting = true)
    (h : opStep keys rnd s = .next t) : s.SameTimers t := by
  obtain ⟨-, e⟩ | ⟨-, e⟩ := opStep_cases keys rnd s
  · cases e.symm.trans h; exact ⟨rfl, rfl⟩
  · rw [cycle_of_waiting (s := s.begin keys rnd) hw] at e
    cases e.symm.trans h
    exact deliverKey_sameTimers (s.begin keys rnd)

/-- Of the host's operations only RESET writes a timer during a key-wait. -/
theorem perform_sameTimers_of_waiting {op : HostOp} {s t : State} (hw : s.waiting = true) (hop : op ≠ .reset)
    (h : perform op s = .next t) : s.SameTimers t := by
  cases op with
  | reset => exact absurd rfl hop
  | load bytes => cases h; exact opLoad_sameTimers bytes s
  | tick => cases h; rw [opTick_of_waiting hw]; exact ⟨rfl, rfl⟩
  | step keys rnd => exact opStep_sameTimers_of_waiting hw h

/-- Settles O24: no operation but RESET writes a timer during a key-wait, and `sound_on` is read off the sound timer. -/
theorem keyWaitFreezesTheTimers : Obligations.KeyWaitFreezesTheTimers := by
  intro op s t hw hop h
  have same : s.SameTimers t := perform_sameTimers_of_waiting hw hop h
  exact ⟨same.1, same.2, same.soundOn, opTick_of_waiting hw⟩

end Sys2Proof.Machine
end

section
/-! The proofs about the encoding (30_encoding.md): the decoder and the encoder are inverse to each other (R71 to R74), decoding
is selection in the opcode table (R74, R75), and the unrecognised words are six classes (R76). -/

namespace Sys2Proof

/-! ### Decoding what the encoder wrote -/

/-- The decoder gives back every instruction from its word. -/
@[simp] theorem decodeWord_encode (i : Instr) : decodeWord (encode i) = some i := by
  cases i with
  | cls | ret => rfl
  | jp | call | ldI | jpV0 => simp [encode, decodeWord, nibbleA_nnn, fieldNNN_nnn]
  | seByte | sneByte | ldByte | addByte | rnd => simp [encode, decodeWord, nibbleA_xkk, nibbleB_xkk, fieldKK_xkk]
  | skp | sknp => simp [encode, decodeWord, nibbleA_xkk, nibbleB_xkk, fieldKK_xkk, decodeE]
  | ldFromDT | waitKey | ldToDT | ldToST | addI | ldFont | bcd | dump | load =>
    simp [encode, decodeWord, nibbleA_xkk, nibbleB_xkk, fieldKK_xkk, decodeF]
  | seReg | sneReg | drw => simp [encode, decodeWord, nibbleA_xyn, nibbleB_xyn, nibbleC_xyn, nibbleD_xyn]
  | ldReg | orReg | andReg | xorReg | addReg | subReg | shr | subnReg | shl =>
    simp [encode, decodeWord, nibbleA_xyn, nibbleB_xyn, nibbleC_xyn, nibbleD_xyn, decode8]

/-- The two bytes of a word, high byte first, decode as the word does. -/
theorem decode_bytes_of_decodeWord {w : Word} {i : Instr} (h : decodeWord w = some i) (rest : List Byte) :
    decode (highByte w :: lowByte w :: rest) = .ok (i, rest) := by
  simp [decode, h]

theorem decodeTableWord_of_decodeWord {w : Word} {i : Instr} (h : decodeWord w = some i) :
    decodeTableWord 16 w.toNat = some i := by
  have whole : BitVec.ofNat 16 (w.toNat % 2 ^ 16) = w := by
    rw [Nat.mod_eq_of_lt w.isLt, BitVec.ofNat_toNat, BitVec.setWidth_eq]
  simp only [decodeTableWord, whole, decode_bytes_of_decodeWord h]

/-- Settles O1: the word decodes back field by field, and bytes and table bits are put together to that word. -/
theorem decodeOfEncodeIsTheInstruction : Obligations.DecodeOfEncodeIsTheInstruction := fun i rest =>
  ⟨decodeWord_encode i, decode_bytes_of_decodeWord (decodeWord_encode i) rest,
    decodeTableWord_of_decodeWord (decodeWord_encode i)⟩

/-! ### Encoding what the decoder read -/

/-- A word is put together from its leading nibble and `nnn`. -/
theorem nibbleA_append_fieldNNN (w : Word) : nibbleA w ++ fieldNNN w = w := by
  apply BitVec.eq_of_toNat_eq
  rw [formatNNN_toNat, nibbleA_toNat, fieldNNN_toNat]; omega

/-- A word is put together from its leading nibble, `x` and `kk`. -/
theorem nibbleA_append_nibbleB_append_fieldKK (w : Word) : nibbleA w ++ nibbleB w ++ fieldKK w = w := by
  apply BitVec.eq_of_toNat_eq
  rw [formatXKK_toNat, nibbleA_toNat, nibbleB_toNat, fieldKK_toNat]; omega

/-- A word is put together from its four nibbles. -/
theorem nibbles_append (w : Word) : nibbleA w ++ nibbleB w ++ nibbleC w ++ nibbleD w = w := by
  apply BitVec.eq_of_toNat_eq
  rw [formatXYN_toNat, nibbleA_toNat, nibbleB_toNat, nibbleC_toNat, nibbleD_toNat]; omega

/-- One row of a group: where the row's instruction and the rows after it are encoded as the word, so is what is selected. -/
theorem encode_of_ite {p : Prop} [Decidable p] {i j : Instr} {others : Option Instr} {w : Word} (row : p → encode j = w)
    (rest : others = some i → encode i = w) (h : (if p then some j else others) = some i) : encode i = w := by
  by_cases hp : p
  · rw [if_pos hp] at h
    cases h; exact row hp
  · rw [if_neg hp] at h
    exact rest h

theorem encode_of_decode0 {nnn : Addr} {i : Instr} : decode0 nnn = some i → encode i = 0x0#4 ++ nnn := by
  iterate 2 refine encode_of_ite (by rintro rfl; rfl) ?_
  exact nofun

theorem encode_of_decode8 {x y d : Nibble} {i : Instr} : decode8 x y d = some i → encode i = 0x8#4 ++ x ++ y ++ d := by
  iterate 9 refine encode_of_ite (by rintro rfl; rfl) ?_
  exact nofun

theorem encode_of_decodeE {x : Nibble} {kk : Byte} {i : Instr} :
    decodeE x kk = some i → encode i = 0xE#4 ++ x ++ kk := by
  iterate 2 refine encode_of_ite (by rintro rfl; rfl) ?_
  exact nofun

theorem encode_of_decodeF {x : Nibble} {kk : Byte} {i : Instr} :
    decodeF x kk = some i → encode i = 0xF#4 ++ x ++ kk := by
  iterate 9 refine encode_of_ite (by rintro rfl; rfl) ?_
  exact nofun

/-- A word of a group in which a nibble `d` of 0 is the only one recognised. -/
theorem eq_of_ite_zero {d : Nibble} {i j : Instr} (h : (if d = 0x0#4 then some j else none) = some i) :
    d = 0x0#4 ∧ j = i := by
  split_ifs at h with hd
  exact ⟨hd, Option.some.inj h⟩

/-- Settles O2: a word is put together from the fields the decoder reads, as the encoder puts them together. -/
theorem encodeOfDecodeIsTheWord : Obligations.EncodeOfDecodeIsTheWord := by
  intro w i h
  have nnn := nibbleA_append_fieldNNN w
  have xkk := nibbleA_append_nibbleB_append_fieldKK w
  have xyn := nibbles_append w
  rcases decodeWord_groups w with ⟨hA, e⟩ | ⟨hA, e⟩ | ⟨hA, e⟩ | ⟨hA, e⟩ | ⟨hA, e⟩ | ⟨hA, e⟩ | ⟨hA, e⟩ | ⟨hA, e⟩ |
    ⟨hA, e⟩ | ⟨hA, e⟩ | ⟨hA, e⟩ | ⟨hA, e⟩ | ⟨hA, e⟩ | ⟨hA, e⟩ | ⟨hA, e⟩ | ⟨hA, e⟩
  all_goals rw [hA] at nnn xkk xyn; rw [e] at h
  · exact (encode_of_decode0 h).trans nnn
  · cases h; exact nnn
  · cases h; exact nnn
  · cases h; exact xkk
  · cases h; exact xkk
  · obtain ⟨hD, rfl⟩ := eq_of_ite_zero h; rwa [hD] at xyn
  · cases h; exact xkk
  · cases h; exact xkk
  · exact (encode_of_decode8 h).trans xyn
  · obtain ⟨hD, rfl⟩ := eq_of_ite_zero h; rwa [hD] at xyn
  · cases h; exact nnn
  · cases h; exact nnn
  · cases h; exact xkk
  · cases h; exact xyn
  · exact (encode_of_decodeE h).trans xkk
  · exact (encode_of_decodeF h).trans xkk

/-! ### Selection in the opcode table -/

theorem row_mem_opcodeRows (i : Instr) : i.row ∈ opcodeRows := by
  cases i <;> simp [Instr.row, opcodeRows, oneOfEachRow]

/-- Every instruction's word selects the instruction's row (the lemmas of Laws/PerInstr.lean, gathered). -/
theorem encode_and_mask (i : Instr) : encode i &&& i.row.mask = i.row.pattern := by
  have selected : Laws.RowSelected.Statement i := match i with
    | .cls => Laws.RowSelected.cls
    | .ret => Laws.RowSelected.ret
    | .jp nnn => Laws.RowSelected.jp nnn
    | .call nnn => Laws.RowSelected.call nnn
    | .seByte x kk => Laws.RowSelected.seByte x kk
    | .sneByte x kk => Laws.RowSelected.sneByte x kk
    | .seReg x y => Laws.RowSelected.seReg x y
    | .ldByte x kk => Laws.RowSelected.ldByte x kk
    | .addByte x kk => Laws.RowSelected.addByte x kk
    | .ldReg x y => Laws.RowSelected.ldReg x y
    | .orReg x y => Laws.RowSelected.orReg x y
    | .andReg x y => Laws.RowSelected.andReg x y
    | .xorReg x y => Laws.RowSelected.xorReg x y
    | .addReg x y => Laws.RowSelected.addReg x y
    | .subReg x y => Laws.RowSelected.subReg x y
    | .shr x y => Laws.RowSelected.shr x y
    | .subnReg x y => Laws.RowSelected.subnReg x y
    | .shl x y => Laws.RowSelected.shl x y
    | .sneReg x y => Laws.RowSelected.sneReg x y
    | .ldI nnn => Laws.RowSelected.ldI nnn
    | .jpV0 nnn => Laws.RowSelected.jpV0 nnn
    | .rnd x kk => Laws.RowSelected.rnd x kk
    | .drw x y n => Laws.RowSelected.drw x y n
    | .skp x => Laws.RowSelected.skp x
    | .sknp x => Laws.RowSelected.sknp x
    | .ldFromDT x => Laws.RowSelected.ldFromDT x
    | .waitKey x => Laws.RowSelected.waitKey x
    | .ldToDT x => Laws.RowSelected.ldToDT x
    | .ldToST x => Laws.RowSelected.ldToST x
    | .addI x => Laws.RowSelected.addI x
    | .ldFont x => Laws.RowSelected.ldFont x
    | .bcd x => Laws.RowSelected.bcd x
    | .dump x => Laws.RowSelected.dump x
    | .load x => Laws.RowSelected.load x
  exact of_decide_eq_true selected.2

/-- A mask whose last nibble is all ones keeps the last nibble. -/
theorem nibbleD_of_and {w mask pattern : Word} (h : w &&& mask = pattern) (ones : nibbleD mask = BitVec.allOnes 4) :
    nibbleD w = nibbleD pattern := by
  rw [← h, nibbleD, nibbleD, BitVec.extractLsb'_and, ← nibbleD, ← nibbleD, ones, BitVec.and_allOnes]

/-- A mask whose low byte is all ones keeps the low byte. -/
theorem fieldKK_of_and {w mask pattern : Word} (h : w &&& mask = pattern) (ones : fieldKK mask = BitVec.allOnes 8) :
    fieldKK w = fieldKK pattern := by
  rw [← h, Machine.fieldKK_and_of_allOnes w ones]

/-- A word that selects a row has the leading nibble of the row's pattern: every mask of the table keeps that nibble. -/
theorem nibbleA_of_selected (j : Instr) {w : Word} (h : w &&& j.row.mask = j.row.pattern) :
    nibbleA w = nibbleA j.row.pattern := by
  have ones : ∀ r ∈ opcodeRows, nibbleA r.mask = BitVec.allOnes 4 := by decide
  rw [← h, Machine.nibbleA_and_of_allOnes w (ones _ (row_mem_opcodeRows j))]

/-- A word that selects an instruction's row decodes to an instruction of that row. -/
theorem decodeWord_of_selected (j : Instr) {w : Word} (h : w &&& j.row.mask = j.row.pattern) :
    ∃ i, decodeWord w = some i ∧ i.row = j.row := by
  have groups := decodeWord_groups w
  rw [nibbleA_of_selected j h] at groups
  cases j with
  | cls | ret =>
    obtain rfl : w = _ := (BitVec.and_allOnes (x := w)).symm.trans h
    exact ⟨_, rfl, rfl⟩
  | jp | call | seByte | sneByte | ldByte | addByte | ldI | jpV0 | rnd | drw =>
    simp [Instr.row, nibbleA] at groups
    exact ⟨_, groups, rfl⟩
  | seReg | sneReg | ldReg | orReg | andReg | xorReg | addReg | subReg | shr | subnReg | shl =>
    rw [nibbleD_of_and (mask := 0xF00F#16) h (by decide)] at groups
    simp [Instr.row, nibbleA, nibbleD, decode8] at groups
    exact ⟨_, groups, rfl⟩
  | skp | sknp | ldFromDT | waitKey | ldToDT | ldToST | addI | ldFont | bcd | dump | load =>
    rw [fieldKK_of_and (mask := 0xF0FF#16) h (by decide)] at groups
    simp [Instr.row, nibbleA, fieldKK, decodeE, decodeF] at groups
    exact ⟨_, groups, rfl⟩

/-- Settles O3: a recognised word is its instruction's word, which selects the instruction's row, and a word that selects a row
is one the decoder recognises as of that row. -/
theorem decodingIsSelectionInTheTable : Obligations.DecodingIsSelectionInTheTable := by
  refine fun w => ⟨fun i h => ⟨row_mem_opcodeRows i, ?_⟩, fun r hr h => ?_⟩
  · rw [← encodeOfDecodeIsTheWord w i h, encode_and_mask]
  · obtain ⟨j, -, rfl⟩ := List.mem_map.1 hr
    exact decodeWord_of_selected j h

/-! ### The unrecognised words (30_encoding.md R76) -/

/-- One row of a group: the group leaves unrecognised what the row does not match and the rows after it leave. -/
theorem ite_some_eq_none_iff {p : Prop} [Decidable p] (i : Instr) (others : Option Instr) :
    (if p then some i else others) = none ↔ ¬ p ∧ others = none := by
  by_cases h : p <;> simp [h]

theorem decode0_eq_none_iff (nnn : Addr) : decode0 nnn = none ↔ nnn.toNat ≠ 0x0E0 ∧ nnn.toNat ≠ 0x0EE := by
  simp [decode0, ite_some_eq_none_iff, ← BitVec.toNat_inj]

theorem decode8_eq_none_iff (x y d : Nibble) :
    decode8 x y d = none ↔ d.toNat ∈ [8, 9, 0xA, 0xB, 0xC, 0xD, 0xF] := by
  have hd := d.isLt
  simp only [decode8, ite_some_eq_none_iff, ← BitVec.toNat_inj, BitVec.toNat_ofNat, List.mem_cons,
    List.not_mem_nil, or_false, and_true]
  omega

theorem decodeE_eq_none_iff (x : Nibble) (kk : Byte) : decodeE x kk = none ↔ kk.toNat ∉ [0x9E, 0xA1] := by
  simp [decodeE, ite_some_eq_none_iff, ← BitVec.toNat_inj]

theorem decodeF_eq_none_iff (x : Nibble) (kk : Byte) :
    decodeF x kk = none ↔ kk.toNat ∉ [0x07, 0x0A, 0x15, 0x18, 0x1E, 0x29, 0x33, 0x55, 0x65] := by
  simp [decodeF, ite_some_eq_none_iff, ← BitVec.toNat_inj]

theorem nibble_eq_zero_iff (d : Nibble) : d = 0x0#4 ↔ d.toNat = 0 := by
  simp [← BitVec.toNat_inj]

/-- Settles O4: the leading nibble selects the group, and each group's own lemma says what it leaves unrecognised. -/
theorem unrecognisedWordsAreSixClasses : Obligations.UnrecognisedWordsAreSixClasses := by
  intro w
  rw [← nibbleA_toNat, ← nibbleD_toNat, ← fieldKK_toNat, ← fieldNNN_toNat]
  rcases decodeWord_groups w with ⟨hA, e⟩ | ⟨hA, e⟩ | ⟨hA, e⟩ | ⟨hA, e⟩ | ⟨hA, e⟩ | ⟨hA, e⟩ | ⟨hA, e⟩ | ⟨hA, e⟩ |
    ⟨hA, e⟩ | ⟨hA, e⟩ | ⟨hA, e⟩ | ⟨hA, e⟩ | ⟨hA, e⟩ | ⟨hA, e⟩ | ⟨hA, e⟩ | ⟨hA, e⟩ <;>
  simp [hA, e, decode0_eq_none_iff, decode8_eq_none_iff, decodeE_eq_none_iff, decodeF_eq_none_iff,
    nibble_eq_zero_iff]

/-- Settles O5: sixteen closed evaluations of the decoder. -/
theorem specWordsDecodeAsWritten : Obligations.SpecWordsDecodeAsWritten := by
  unfold Obligations.SpecWordsDecodeAsWritten
  decide

end Sys2Proof
end

section
/-! What an instruction may do (30_encoding.md section 2, 40_step_cycle.md R96, 60_exceptions.md R161): it latches the fault of the
cause table and nothing else, or `pc` moves once and nothing changes but what the instruction's row names. -/

namespace Sys2Proof.Machine

/-! ### One frame rule per operation of the state -/

theorem Frame.refl (w : Writes) (s : State) : Frame w s s where
  regs _ _ := rfl
  i _ := rfl
  stack _ _ := rfl
  sp _ := rfl
  dt _ := rfl
  st _ := rfl
  canvas _ := ⟨rfl, rfl⟩
  wait _ := ⟨rfl, rfl⟩
  mem _ _ := rfl
  fault := rfl
  inputs := ⟨rfl, rfl, rfl, rfl⟩

section
variable {w : Writes} {s t : State}

theorem Frame.setV (h : Frame w s t) (r : Nibble) (b : Byte) (may : r ∈ w.regs) : Frame w s (t.setV r b) :=
  { h with
    regs := fun q hq => by
      have other : r ≠ q := fun e => hq (e ▸ may)
      rw [t.setV_getV_other b other, h.regs q hq] }

theorem Frame.setVs (h : Frame w s t) (k : Nat) (bytes : List Byte)
    (may : ∀ j, k ≤ j → j < k + bytes.length → BitVec.ofNat 4 j ∈ w.regs) : Frame w s (t.setVs k bytes) := by
  induction bytes generalizing t k with
  | nil => exact h
  | cons b rest ih =>
    rw [List.length_cons] at may
    exact ih (h.setV _ b (may k (by omega) (by omega))) (k + 1) fun j _ _ => may j (by omega) (by omega)

theorem Frame.setI (h : Frame w s t) (a : Word) (may : w.i = true) : Frame w s (t.setI a) :=
  { h with i := fun hn => by simp [may] at hn }

theorem Frame.setDT (h : Frame w s t) (b : Byte) (may : w.dt = true) : Frame w s (t.setDT b) :=
  { h with dt := fun hn => by simp [may] at hn }

theorem Frame.setST (h : Frame w s t) (b : Byte) (may : w.st = true) : Frame w s (t.setST b) :=
  { h with st := fun hn => by simp [may] at hn }

theorem Frame.setCanvas (h : Frame w s t) (p : Canvas) (d : Bool) (may : w.canvas = true) :
    Frame w s (t.setCanvas p d) :=
  { h with canvas := fun hn => by simp [may] at hn }

theorem Frame.setWait (h : Frame w s t) (b : Bool) (r : Nibble) (may : w.wait = true) : Frame w s (t.setWait b r) :=
  { h with wait := fun hn => by simp [may] at hn }

theorem Frame.jump (h : Frame w s t) (a : Word) : Frame w s (t.jump a) := { h with }

theorem Frame.skipIf (h : Frame w s t) (c : Bool) : Frame w s (t.skipIf c) := by
  rw [t.skipIf_eq_jump]
  exact h.jump _

theorem Frame.pop (h : Frame w s t) (may : w.sp = true) : Frame w s t.pop :=
  { h with sp := fun hn => by simp [may] at hn }

theorem Frame.push (h : Frame w s t) (a : Word) (room : t.sp.val < 16) (may : w.sp = true)
    (entry : w.stackEntry = some t.sp.val) : Frame w s (t.push a room) :=
  { h with
    sp := fun hn => by simp [may] at hn
    stack := fun k hk => by
      have other : t.sp.val ≠ k.val := fun e => hk (by rw [entry, e])
      exact (Vector.getElem_set_ne room k.isLt other).trans (h.stack k hk) }

/-- Storing bytes where the frame allows bytes to be stored. -/
theorem Frame.writeBytes (h : Frame w s t) (bytes : List Byte) (len : w.len = bytes.length) :
    Frame w s (t.setMem (t.mem.writeBytes w.base bytes)) :=
  { h with
    mem := fun a ha => by
      rw [len] at ha
      exact (Memory.read_writeBytes_outside t.mem bytes ha).trans (h.mem a (len ▸ ha)) }

end

/-! ### Everything one instruction can do -/

/-- What each instruction may write besides `pc` where it does not fault (30_encoding.md section 2). -/
def writesOf (i : Instr) (s : State) : Writes :=
  match i with
  | .jp _ | .jpV0 _ | .seByte _ _ | .sneByte _ _ | .seReg _ _ | .sneReg _ _ | .skp _ | .sknp _ => {}
  | .ldByte x _ | .addByte x _ | .ldReg x _ | .orReg x _ | .andReg x _ | .xorReg x _ | .rnd x _ | .ldFromDT x => { regs := [x] }
  | .addReg x _ | .subReg x _ | .shr x _ | .subnReg x _ | .shl x _ => { regs := [x, regF] }
  | .ldI _ | .addI _ | .ldFont _ => { i := true }
  | .call _ => { stackEntry := some s.sp.val, sp := true }
  | .ret => { sp := true }
  | .ldToDT _ => { dt := true }
  | .ldToST _ => { st := true }
  | .waitKey _ => { wait := true }
  | .cls => { canvas := true }
  | .drw _ _ _ => { canvas := true, regs := [regF] }
  | .bcd _ => { base := s.i.toNat, len := 3 }
  | .dump x => { base := s.i.toNat, len := x.toNat + 1 }
  | .load x => { regs := (List.range (x.toNat + 1)).map (BitVec.ofNat 4) }

/-- `t` is what an instruction that does not fault makes of `s`. -/
structure Ran (i : Instr) (s t : State) : Prop where
  pc : t.pc = pcAfter i s
  frame : Frame (writesOf i s) s t
  wf : s.mem.wf → t.mem.wf

/-- The instruction latches the fault of the cause table, or it has none and runs. -/
def FaultsOrRuns (i : Instr) (s : State) : Prop :=
  (∃ f, faultOf i s = some f ∧ exec i s = .next (s.latch f)) ∨ (faultOf i s = none ∧ ∃ t, exec i s = .next t ∧ Ran i s t)

theorem zextAddr_eq_ofNat (nnn : Addr) : zextAddr nnn = BitVec.ofNat 16 nnn.toNat := (BitVec.ofNat_toNat 16 nnn).symm

theorem zextAddr_add_zextByte (nnn : Addr) (b : Byte) :
    zextAddr nnn + zextByte b = BitVec.ofNat 16 (nnn.toNat + b.toNat) := by
  rw [BitVec.ofNat_add, BitVec.ofNat_toNat, BitVec.ofNat_toNat]; rfl

theorem State.skipIf_decide (s : State) (p : Prop) [Decidable p] :
    s.skipIf (decide p) = s.jump (if p then s.pc + 4#16 else s.pc + 2#16) := by
  by_cases h : p <;> simp [h, State.skipIf, State.skip, State.advance]

theorem keyPressed_eq_decide (s : State) (x : Nibble) : s.keyPressed (s.getV x) = decide (s.KeyDown x) := by
  simp [State.keyPressed, State.KeyDown]

theorem exec_skp (x : Nibble) (s : State) : exec (.skp x) s = .next (s.skipIf (decide (s.KeyDown x))) := by
  rw [← keyPressed_eq_decide]; rfl

theorem exec_sknp (x : Nibble) (s : State) : exec (.sknp x) s = .next (s.skipIf (decide (¬ s.KeyDown x))) := by
  rw [decide_not, ← keyPressed_eq_decide]; rfl

/-- An instruction whose meaning is a conditional skip runs. -/
theorem faultsOrRuns_of_skip {i : Instr} {s : State} {p : Prop} [Decidable p] (nofault : faultOf i s = none)
    (hexec : exec i s = .next (s.skipIf (decide p))) (hpc : pcAfter i s = if p then s.pc + 4#16 else s.pc + 2#16) :
    FaultsOrRuns i s := by
  rw [s.skipIf_decide] at hexec
  exact .inr ⟨nofault, _, hexec, hpc.symm, (Frame.refl _ s).jump _, id⟩

/-- An instruction whose meaning is a store at `I` faults or runs. -/
theorem faultsOrRuns_of_store {i : Instr} {s : State} {bytes : List Byte} (hexec : exec i s = storeAtI bytes s)
    (hpc : pcAfter i s = s.pc + 2#16) (hw : writesOf i s = { base := s.i.toNat, len := bytes.length })
    (nonempty : bytes.length ≠ 0)
    (hfault : faultOf i s = if s.i.toNat + (bytes.length - 1) > 0xFFF then some (.memWriteRange s.i) else none) :
    FaultsOrRuns i s := by
  obtain ⟨-, out, e⟩ | ⟨fits, e⟩ := storeAtI_cases bytes s
  · exact .inl ⟨_, hfault.trans (if_pos (by omega)), hexec.trans e⟩
  · refine .inr ⟨hfault.trans (if_neg (by omega)), _, hexec.trans e, hpc.symm, ?_, ?_⟩
    · rw [hw]
      exact ((Frame.refl _ s).writeBytes bytes rfl).jump _
    · exact Memory.writeBytes_wf _ _ _ (by rw [Config.memSize]; omega)

theorem faultsOrRuns_call (nnn : Addr) (s : State) : FaultsOrRuns (.call nnn) s := by
  by_cases room : s.sp.val < 16
  · exact .inr ⟨if_neg (by omega), _, exec_call_of_room nnn room, zextAddr_eq_ofNat nnn,
      ((Frame.refl _ s).push _ room rfl rfl).jump _, id⟩
  · exact .inl ⟨_, if_pos (by omega), exec_call_of_full nnn room⟩

theorem faultsOrRuns_ret (s : State) : FaultsOrRuns .ret s := by
  by_cases used : 0 < s.sp.val
  · exact .inr ⟨if_neg (by omega), _, exec_ret_of_used used, rfl, ((Frame.refl _ s).pop rfl).jump _, id⟩
  · exact .inl ⟨_, if_pos (by omega), exec_ret_of_empty used⟩

theorem faultsOrRuns_load (x : Nibble) (s : State) : FaultsOrRuns (.load x) s := by
  obtain ⟨out, e⟩ | ⟨fits, e⟩ := execLoad_cases x s
  · rw [outOfRange_eq_true] at out
    exact .inl ⟨_, if_pos (by omega), e⟩
  · rw [outOfRange_eq_false] at fits
    refine .inr ⟨if_neg (by omega), _, e, ?_, Frame.jump ((Frame.refl _ s).setVs _ _ ?_) _, ?_⟩
    · rw [s.setVs_of_v]; rfl
    · intro j _ hj
      exact List.mem_map_of_mem (List.mem_range.2 (by simpa using hj))
    · rw [s.setVs_of_v]; exact id

theorem faultsOrRuns_drw (x y n : Nibble) (s : State) : FaultsOrRuns (.drw x y n) s := by
  obtain ⟨out, e⟩ | ⟨fits, d, -, e⟩ := execDrw_cases x y n s
  · rw [outOfRange_eq_true] at out
    exact .inl ⟨_, if_pos out, e⟩
  · rw [← Bool.not_eq_true, outOfRange_eq_true] at fits
    exact .inr ⟨if_neg fits, _, e, rfl,
      (((Frame.refl _ s).setCanvas _ _ rfl).setV _ _ List.mem_cons_self).jump _, id⟩

/-- Every instruction faults as the cause table says, or runs. -/
theorem exec_cases (i : Instr) (s : State) : FaultsOrRuns i s := by
  cases i with
  | call nnn => exact faultsOrRuns_call nnn s
  | ret => exact faultsOrRuns_ret s
  | load x => exact faultsOrRuns_load x s
  | drw x y n => exact faultsOrRuns_drw x y n s
  | bcd x => exact faultsOrRuns_of_store (exec_bcd x s) rfl rfl (by simp) rfl
  | dump x =>
    have len : (s.regsUpTo x).length = x.toNat + 1 := regsUpTo_length s x
    exact faultsOrRuns_of_store (exec_dump x s) rfl (by rw [len]; rfl) (by omega) (by rw [len]; rfl)
  | seByte | sneByte | seReg | sneReg => exact faultsOrRuns_of_skip rfl rfl rfl
  | skp x => exact faultsOrRuns_of_skip rfl (exec_skp x s) rfl
  | sknp x => exact faultsOrRuns_of_skip rfl (exec_sknp x s) rfl
  | jp nnn => exact .inr ⟨rfl, _, rfl, zextAddr_eq_ofNat nnn, (Frame.refl _ s).jump _, id⟩
  | jpV0 nnn => exact .inr ⟨rfl, _, rfl, zextAddr_add_zextByte nnn _, (Frame.refl _ s).jump _, id⟩
  | ldByte | addByte | ldReg | orReg | andReg | xorReg | rnd | ldFromDT =>
    exact .inr ⟨rfl, _, rfl, rfl, ((Frame.refl _ s).setV _ _ List.mem_cons_self).jump _, id⟩
  | subReg | shr | subnReg | shl =>
    exact .inr ⟨rfl, _, rfl, rfl,
      (((Frame.refl _ s).setV _ _ (List.mem_cons_of_mem _ List.mem_cons_self)).setV _ _ List.mem_cons_self).jump _, id⟩
  | addReg =>
    exact .inr ⟨rfl, _, rfl, rfl,
      (((Frame.refl _ s).setV _ _ List.mem_cons_self).setV _ _ (List.mem_cons_of_mem _ List.mem_cons_self)).jump _, id⟩
  | ldI | addI | ldFont => exact .inr ⟨rfl, _, rfl, rfl, ((Frame.refl _ s).setI _ rfl).jump _, id⟩
  | ldToDT => exact .inr ⟨rfl, _, rfl, rfl, ((Frame.refl _ s).setDT _ rfl).jump _, id⟩
  | ldToST => exact .inr ⟨rfl, _, rfl, rfl, ((Frame.refl _ s).setST _ rfl).jump _, id⟩
  | waitKey => exact .inr ⟨rfl, _, rfl, rfl, ((Frame.refl _ s).setWait _ _ rfl).jump _, id⟩
  | cls => exact .inr ⟨rfl, _, rfl, rfl, ((Frame.refl _ s).setCanvas _ _ rfl).jump _, id⟩

/-- Where the cause table names a fault, the instruction latches it and does nothing else. -/
theorem exec_of_fault {i : Instr} {s : State} {f : Fault} (hf : faultOf i s = some f) : exec i s = .next (s.latch f) := by
  obtain ⟨g, hg, e⟩ | ⟨hn, -⟩ := exec_cases i s
  · cases hf.symm.trans hg; exact e
  · cases hf.symm.trans hn

/-- Where it names none, the instruction runs. -/
theorem exec_of_no_fault {i : Instr} {s : State} (hf : faultOf i s = none) : ∃ t, exec i s = .next t ∧ Ran i s t := by
  obtain ⟨g, hg, -⟩ | ⟨-, h⟩ := exec_cases i s
  · cases hf.symm.trans hg
  · exact h

theorem ran_of_exec {i : Instr} {s t : State} (hf : faultOf i s = none) (h : exec i s = .next t) : Ran i s t := by
  obtain ⟨t', e, ran⟩ := exec_of_no_fault hf
  cases e.symm.trans h; exact ran

/-! ### The cause table and the fault port (60_exceptions.md R161, R169) -/

theorem faultPort_of_no_fault {s : State} (h : s.fault = none) : s.faultPort = (0, 0#16) := by
  simp [State.faultPort, h]

theorem faultPort_of_fault {s : State} {f : Fault} (h : s.fault = some f) : s.faultPort = (f.code, f.info) := by
  simp [State.faultPort, h]

/-- Settles O29: an instruction latches the fault of the table or runs, and what runs keeps the latch. -/
theorem faultTableIsExact : Obligations.FaultTableIsExact := by
  refine ⟨fun i s => ⟨fun f hf => exec_of_fault hf, fun hf => ?_⟩, fun s => ⟨faultPort_of_no_fault, fun info => ?_⟩⟩
  · obtain ⟨t, hexec, ran⟩ := exec_of_no_fault hf
    exact ⟨t, hexec, ran.frame.fault⟩
  · exact ⟨faultPort_of_fault, faultPort_of_fault, faultPort_of_fault, faultPort_of_fault, faultPort_of_fault⟩

/-! ### Frames (30_encoding.md section 2) -/

/-- The frame of an instruction that does not fault, where its row of `writesOf` is known. -/
theorem frame_of_exec {i : Instr} {s t : State} {w : Writes} (hf : faultOf i s = none) (hw : writesOf i s = w)
    (h : exec i s = .next t) : Frame w s t :=
  hw ▸ (ran_of_exec hf h).frame

/-- Settles O32: none of these instructions faults, and each one's row of `writesOf` names the registers. -/
theorem registerInstructionsFrame : Obligations.RegisterInstructionsFrame := by
  intro x y kk s t
  constructor
  · intro i hi
    have row : faultOf i s = none ∧ writesOf i s = { regs := [x] } := by
      simp only [List.mem_cons, List.not_mem_nil, or_false] at hi
      rcases hi with rfl | rfl | rfl | rfl | rfl | rfl | rfl | rfl <;> exact ⟨rfl, rfl⟩
    exact frame_of_exec row.1 row.2
  · intro i hi
    have row : faultOf i s = none ∧ writesOf i s = { regs := [x, regF] } := by
      simp only [List.mem_cons, List.not_mem_nil, or_false] at hi
      rcases hi with rfl | rfl | rfl | rfl | rfl <;> exact ⟨rfl, rfl⟩
    exact frame_of_exec row.1 row.2

/-- Settles O33: the rows of 2nnn and 00EE. -/
theorem callAndReturnFrame : Obligations.CallAndReturnFrame := fun _ _ _ =>
  ⟨fun hf h => frame_of_exec hf rfl h, fun hf h => frame_of_exec hf rfl h⟩

/-- Settles O34: none of these instructions faults, and each one's row of `writesOf` names what it may write. -/
theorem jumpSkipIndexTimerAndWaitFrame : Obligations.JumpSkipIndexTimerAndWaitFrame := by
  intro x y kk nnn s t
  refine ⟨fun i hi => ?_, fun i hi => ?_, frame_of_exec rfl rfl, frame_of_exec rfl rfl, frame_of_exec rfl rfl⟩
  · have row : faultOf i s = none ∧ writesOf i s = {} := by
      simp only [List.mem_cons, List.not_mem_nil, or_false] at hi
      rcases hi with rfl | rfl | rfl | rfl | rfl | rfl | rfl | rfl <;> exact ⟨rfl, rfl⟩
    exact frame_of_exec row.1 row.2
  · have row : faultOf i s = none ∧ writesOf i s = { i := true } := by
      simp only [List.mem_cons, List.not_mem_nil, or_false] at hi
      rcases hi with rfl | rfl | rfl <;> exact ⟨rfl, rfl⟩
    exact frame_of_exec row.1 row.2

/-- Settles O35: the rows of Fx33, Fx55 and Fx65. -/
theorem memoryInstructionsFrame : Obligations.MemoryInstructionsFrame := fun _ _ _ =>
  ⟨fun hf h => frame_of_exec hf rfl h, fun hf h => frame_of_exec hf rfl h, fun hf h => frame_of_exec hf rfl h⟩

/-- Settles O36: the rows of 00E0 and Dxyn. -/
theorem displayInstructionsFrame : Obligations.DisplayInstructionsFrame := fun _ _ _ _ _ =>
  ⟨fun h => frame_of_exec rfl rfl h, fun hf h => frame_of_exec hf rfl h⟩

end Sys2Proof.Machine
end

section
/-! The host's operations RESET, LOAD and TICK (70_reset_and_hazards.md R180, 20_memory.md R60, 60_exceptions.md R167), the STEP in
each of its cases (40_step_cycle.md R90 to R95), and the schedule that calls them (60_exceptions.md R170). -/

namespace Sys2Proof.Machine

/-! ### A faulted core, and one without a fault -/

theorem faulted_of_fault {s : State} (h : s.fault ≠ none) : s.faulted = true := Option.isSome_iff_ne_none.2 h

theorem not_faulted_of_no_fault {s : State} (h : s.fault = none) : s.faulted = false := by
  rw [State.faulted, h]; rfl

/-! ### TICK -/

theorem opTick_of_fault {s : State} (h : s.fault ≠ none) : opTick s = s := if_pos (faulted_of_fault h)

theorem opTick_of_running {s : State} (hf : s.fault = none) (hw : s.waiting = false) :
    opTick s = { s with dt := countDown s.dt, st := countDown s.st } := by
  simp [opTick, not_faulted_of_no_fault hf, hw]

/-- TICK changes the timers alone. -/
theorem opTick_eq (s : State) : opTick s = { s with dt := (opTick s).dt, st := (opTick s).st } := by
  unfold opTick
  split
  · rfl
  · split <;> rfl

theorem countDown_eq_ofNat (t : Byte) : countDown t = BitVec.ofNat 8 (t.toNat - 1) := by
  apply BitVec.eq_of_toNat_eq
  rw [countDown_toNat, BitVec.toNat_ofNat, Nat.mod_eq_of_lt (by omega)]

/-- Settles O13: the saturating count-down is the subtraction of natural numbers. -/
theorem tickCountsDownSaturating : Obligations.TickCountsDownSaturating := by
  refine fun s => ⟨fun hf hw => ?_, opTick_of_waiting, opTick_of_fault⟩
  rw [opTick_of_running hf hw, countDown_eq_ofNat, countDown_eq_ofNat]

/-- Settles O14, by induction on the number of TICKs. -/
theorem freeTicksAreTicksRepeated : Obligations.FreeTicksAreTicksRepeated := by
  intro n s
  induction n with
  | zero => exact opTicks_zero s
  | succ n ih => rw [opTicks_succ, ih, Function.iterate_succ_apply']

/-! ### LOAD -/

theorem opLoad_of_fault {s : State} (bytes : List Byte) (h : s.fault ≠ none) : opLoad bytes s = s :=
  if_pos (faulted_of_fault h)

/-- LOAD changes memory alone. -/
theorem opLoad_eq (bytes : List Byte) (s : State) : opLoad bytes s = { s with mem := (opLoad bytes s).mem } := by
  unfold opLoad
  split <;> rfl

/-- The bytes of an image that fits are those read from 0x200 upward; of a longer one, those up to 0xFFF. -/
theorem opLoad_read_image {s : State} {bytes : List Byte} (hf : s.fault = none) {k : Nat} (hk : k < bytes.length)
    (fits : 0x200 + k ≤ 0xFFF) : (opLoad bytes s).mem.read (0x200 + k) = bytes[k] := by
  rw [opLoad_read _ _ _ hf, dif_pos (by omega)]
  simp

/-- Settles O15: every byte after LOAD (`opLoad_read`), inside the range it fills and outside it. -/
theorem loadFillsTheProgramArea : Obligations.LoadFillsTheProgramArea := by
  refine fun s bytes hf => ⟨fun k hk fits => opLoad_read_image hf hk fits, fun a ha => ?_, opLoad_eq bytes s⟩
  rw [opLoad_read _ _ _ hf, dif_neg (by omega)]

/-! ### RESET -/

theorem read_nil_of_lt {a : Nat} (h : a < 80) : Memory.read [] a = Config.font a := if_pos h

theorem read_nil_of_le {a : Nat} (h : 80 ≤ a) : Memory.read [] a = 0#8 := if_neg (by rw [Config.fontBytes]; omega)

/-- Settles O16: RESET is defined as that state, and its memory is the empty list. -/
theorem resetFromAnyStateIsTheResetState : Obligations.ResetFromAnyStateIsTheResetState := fun _ =>
  ⟨fun _ => read_nil_of_lt, fun _ => read_nil_of_le, rfl⟩

theorem reset_getV (r : Nibble) : State.reset.getV r = 0#8 := by
  simp [State.getV, State.reset]

theorem reset_stack (k : Fin 16) : State.reset.stack[k] = 0#16 := by
  simp [State.reset]

/-- Settles O17: the registers, the stack and the canvas are replicated values, and the rest is read off the record. -/
theorem resetStateValues : Obligations.ResetStateValues :=
  ⟨fun _ => read_nil_of_lt, fun _ => read_nil_of_le, reset_getV, rfl, rfl, reset_stack, rfl, rfl, rfl, pixelAt_blank,
    rfl, rfl, rfl, rfl, rfl⟩

/-- Settles O9: STEP, TICK and LOAD test the latch first, and repeated TICKs have the state as a fixed point. -/
theorem faultedCoreStandsStill : Obligations.FaultedCoreStandsStill := by
  intro s hf
  have faulted : s.faulted = true := faulted_of_fault hf
  refine ⟨fun keys rnd => if_pos faulted, opTick_of_fault hf, fun n => ?_, fun bytes => opLoad_of_fault bytes hf,
    if_pos faulted, rfl⟩
  rw [freeTicksAreTicksRepeated]
  exact Function.iterate_fixed (opTick_of_fault hf) n

/-! ### STEP on a core with no fault -/

theorem opStep_of_no_fault {s : State} (keys : BitVec 16) (rnd : Byte) (hf : s.fault = none) :
    opStep keys rnd s = cycle (s.begin keys rnd) :=
  if_neg (by simp [not_faulted_of_no_fault hf])

theorem cycle_of_instr {s : State} {i : Instr} (hw : s.waiting = false) (hi : s.instrAtPc = some i) :
    cycle s = exec i s := by
  obtain ⟨hw', -⟩ | ⟨-, -, hn, -⟩ | ⟨-, -, hn, -⟩ | ⟨-, -, j, hj, e⟩ := cycle_cases_instrAtPc s
  · cases hw.symm.trans hw'
  · cases hn.symm.trans hi
  · cases hn.symm.trans hi
  · cases hj.symm.trans hi; exact e

theorem cycle_of_pc_out {s : State} (hw : s.waiting = false) (out : 0xFFE < s.pc.toNat) :
    cycle s = .next (s.latch (.fetchRange s.pc)) := by
  obtain ⟨hw', -⟩ | ⟨-, -, -, e⟩ | ⟨-, hp, -⟩ | ⟨-, hp, -⟩ := cycle_cases_instrAtPc s
  · cases hw.symm.trans hw'
  · exact e
  · omega
  · omega

theorem cycle_of_unrecognised {s : State} (hw : s.waiting = false) (hp : s.pc.toNat ≤ 0xFFE) (hn : s.instrAtPc = none) :
    cycle s = .next s.advance := by
  obtain ⟨hw', -⟩ | ⟨-, out, -⟩ | ⟨-, -, -, e⟩ | ⟨-, -, i, hi, -⟩ := cycle_cases_instrAtPc s
  · cases hw.symm.trans hw'
  · omega
  · exact e
  · cases hn.symm.trans hi

/-- A STEP on a core that neither has a fault nor waits is the instruction at `pc`, after phase 1. -/
theorem opStep_of_instr {s : State} {i : Instr} (keys : BitVec 16) (rnd : Byte) (hf : s.fault = none)
    (hw : s.waiting = false) (hi : s.instrAtPc = some i) : opStep keys rnd s = exec i (s.begin keys rnd) :=
  (opStep_of_no_fault keys rnd hf).trans (cycle_of_instr (s := s.begin keys rnd) hw hi)

/-- Settles O7: the word at `pc` is no instruction, so phases 2 and 3 advance. -/
theorem unrecognisedWordOnlyAdvances : Obligations.UnrecognisedWordOnlyAdvances := by
  intro s keys rnd hf hw hp hn
  have none_at_pc : s.instrAtPc = none := (if_pos hp).trans hn
  exact (opStep_of_no_fault keys rnd hf).trans (cycle_of_unrecognised (s := s.begin keys rnd) hw hp none_at_pc)

/-- Settles O8: the fetch latches its fault after phase 1, and a latched fault hides the snapshot. -/
theorem fetchOutsideMemoryFaults : Obligations.FetchOutsideMemoryFaults := fun s keys rnd hf hw out =>
  ⟨_, (opStep_of_no_fault keys rnd hf).trans (cycle_of_pc_out (s := s.begin keys rnd) hw out), rfl, rfl, rfl⟩

/-! ### The key delivery (40_step_cycle.md R92) -/

/-- The key delivery writes registers and ends the wait, and changes nothing else. -/
theorem deliverKey_eq (s : State) :
    deliverKey s = { s with v := (deliverKey s).v, waiting := (deliverKey s).waiting } := by
  obtain ⟨-, e⟩ | ⟨b, -, -, -, e⟩ := deliverKey_cases s
  · rw [e]
  · rw [e]; rfl

theorem deliverKey_of_no_key {s : State} (h : s.keys = 0#16) : deliverKey s = s := by
  obtain ⟨-, e⟩ | ⟨b, -, pressed, -, -⟩ := deliverKey_cases s
  · exact e
  · simp [h] at pressed

theorem deliverKey_of_lowest {s : State} {k : Nat} (pressed : s.keys.getLsbD k = true)
    (lowest : ∀ j, j < k → s.keys.getLsbD j = false) :
    deliverKey s = (s.setV s.waitReg (BitVec.ofNat 8 k)).setWait false s.waitReg := by
  obtain ⟨none_pressed, -⟩ | ⟨b, -, hb, hlow, e⟩ := deliverKey_cases s
  · simp [none_pressed] at pressed
  · have hle : k ≤ b.toNat := not_lt.1 fun hlt => by simp [lowest _ hlt] at hb
    have hge : b.toNat ≤ k := not_lt.1 fun hlt => by simp [hlow _ hlt] at pressed
    have hkb : BitVec.ofNat 8 k = b := by rw [le_antisymm hle hge, BitVec.ofNat_toNat, BitVec.setWidth_eq]
    rw [hkb, e]

/-- A STEP on a waiting core delivers a key and does nothing else. -/
theorem opStep_of_waiting {s : State} (keys : BitVec 16) (rnd : Byte) (hf : s.fault = none) (hw : s.waiting = true) :
    opStep keys rnd s = .next (deliverKey (s.begin keys rnd)) :=
  (opStep_of_no_fault keys rnd hf).trans (cycle_of_waiting (s := s.begin keys rnd) hw)

/-- Settles O10: with no key the delivery changes nothing; else the lowest pressed one is the one it delivers. -/
theorem waitingStepDeliversTheLowestKey : Obligations.WaitingStepDeliversTheLowestKey := by
  intro s keys rnd hf hw
  rw [opStep_of_waiting keys rnd hf hw]
  refine ⟨fun none_pressed => ?_, fun k _ pressed lowest => ?_⟩
  · rw [deliverKey_of_no_key none_pressed]; rfl
  · rw [deliverKey_of_lowest (s := s.begin keys rnd) pressed lowest]
    have cleared : Frame { regs := [s.waitReg], wait := true, canvas := true } { s with keys := keys, rnd := rnd }
        (s.begin keys rnd) :=
      (Frame.refl _ _).setCanvas s.pix false rfl
    exact ⟨_, rfl, State.setV_getV_same _ _ _, rfl, rfl, rfl,
      (cleared.setV _ _ List.mem_cons_self).setWait _ _ rfl, rfl, rfl⟩

/-! ### The schedule -/

theorem step_of_schedule_cons {s : State} {op : HostOp} {rest : List HostOp} (h : s.schedule = op :: rest) :
    step s = perform op { s with schedule := rest } := by
  simp [step, hostStep, h]

theorem step_of_schedule_nil {s : State} (h : s.schedule = []) :
    step s = opStep (Config.freeKeys s.draws) (Config.freeRnd s.draws)
      { opTicks (Config.freeTicks s.draws) s with draws := s.draws + 1 } := by
  simp [step, hostStep, h, freeStep]

/-- Settles O6: the schedule's two forms, and the STEP of either on a core that neither has a fault nor waits. -/
theorem stepRunsTheDecodedInstruction : Obligations.StepRunsTheDecodedInstruction := by
  refine ⟨fun _ _ _ => step_of_schedule_cons, fun _ => step_of_schedule_nil,
    fun _ => ⟨rfl, fun _ => rfl, rfl, fun _ _ => rfl⟩, fun s i hf hw hi => ⟨fun keys rnd rest h => ?_, fun h => ?_⟩⟩
  · rw [step_of_schedule_cons h]
    exact opStep_of_instr (s := { s with schedule := rest }) keys rnd hf hw hi
  · rw [step_of_schedule_nil h]
    exact opStep_of_instr (s := { opTicks _ s with draws := s.draws + 1 }) _ _ hf hw hi

/-- Settles O18: RESET clears the fault, so LOAD fills the program area and leaves the rest of the reset state. -/
theorem bootLoadsTheProgram : Obligations.BootLoadsTheProgram := by
  intro s bytes frames hlen hs
  have short : bytes.length ≤ 3584 := of_decide_eq_true hlen
  have first : step s = .next (opReset { s with schedule := .load bytes :: frames.flatMap frameOps }) :=
    step_of_schedule_cons hs
  have second := step_of_schedule_cons
    (s := opReset { s with schedule := .load bytes :: frames.flatMap frameOps }) (op := .load bytes) rfl
  refine ⟨_, _, first, second, ?_, ?_, ?_, fun k hk => ?_, ?_⟩
  · rw [opLoad_eq]; rfl
  · rw [opLoad_eq]; rfl
  · rw [opLoad_eq]; rfl
  · exact opLoad_read_image rfl hk (by omega)
  · rw [opLoad_eq]

end Sys2Proof.Machine
end

section
/-! What every step keeps (70_reset_and_hazards.md R189, 60_exceptions.md R162, R172, R174): the invariants, that a step always
answers, when the key-wait begins and ends, who writes the timers, where `pc` goes, and that an ended program stays ended. -/

namespace Sys2Proof.Machine

/-! ### A predicate every operation keeps is kept by every step -/

/-- What the host's four operations keep, and taking an operation off the schedule or counting a draw keeps, every step keeps. -/
theorem step_keeps {P : State → Prop} (schedule : ∀ s rest, P s → P { s with schedule := rest })
    (draws : ∀ s n, P s → P { s with draws := n }) (op : ∀ op s t, P s → perform op s = .next t → P t) {s t : State}
    (hs : P s) (h : step s = .next t) : P t := by
  obtain ⟨-, e⟩ | ⟨first, rest, -, e⟩ := step_cases s
  · have ticked : P (opTicks (Config.freeTicks s.draws) s) := by
      rw [freeTicksAreTicksRepeated]
      exact Function.Iterate.rec P hs (fun u hu => op .tick u _ hu rfl) _
    exact op (.step _ _) _ t (draws _ _ ticked) (e.symm.trans h)
  · exact op first _ t (schedule _ rest hs) (e.symm.trans h)

/-! ### Every step answers (60_exceptions.md R174) -/

theorem exec_next (i : Instr) (s : State) : ∃ t, exec i s = .next t := by
  obtain ⟨f, -, e⟩ | ⟨-, t, e, -⟩ := exec_cases i s
  · exact ⟨_, e⟩
  · exact ⟨_, e⟩

theorem cycle_next (s : State) : ∃ t, cycle s = .next t := by
  obtain ⟨-, e⟩ | ⟨-, -, -, e⟩ | ⟨-, -, -, e⟩ | ⟨-, -, i, -, e⟩ := cycle_cases_instrAtPc s
  · exact ⟨_, e⟩
  · exact ⟨_, e⟩
  · exact ⟨_, e⟩
  · rw [e]; exact exec_next i s

theorem opStep_next (keys : BitVec 16) (rnd : Byte) (s : State) : ∃ t, opStep keys rnd s = .next t := by
  obtain ⟨-, e⟩ | ⟨-, e⟩ := opStep_cases keys rnd s
  · exact ⟨_, e⟩
  · rw [e]; exact cycle_next _

theorem perform_next (op : HostOp) (s : State) : ∃ t, perform op s = .next t := by
  cases op with
  | reset | load | tick => exact ⟨_, rfl⟩
  | step keys rnd => exact opStep_next keys rnd s

/-- Settles O22: every operation answers, because every instruction does. -/
theorem everyStepAnswersANextState : Obligations.EveryStepAnswersANextState := by
  intro s
  obtain ⟨-, e⟩ | ⟨op, rest, -, e⟩ := step_cases s
  · rw [e]; exact opStep_next _ _ _
  · rw [e]; exact perform_next _ _

/-! ### The invariant (70_reset_and_hazards.md R189) -/

theorem toNat_add_two {pc : Word} (h : pc.toNat ≤ 0xFFE) : (pc + 2#16).toNat = pc.toNat + 2 := by
  rw [BitVec.toNat_add, BitVec.toNat_ofNat]; omega

theorem toNat_add_four {pc : Word} (h : pc.toNat ≤ 0xFFE) : (pc + 4#16).toNat = pc.toNat + 4 := by
  rw [BitVec.toNat_add, BitVec.toNat_ofNat]; omega

/-- Where an instruction fetched from memory sends `pc`: at most to 0xFFF + 0xFF, which Bnnn reaches. -/
theorem pcAfter_le (i : Instr) {s : State} (hp : s.pc.toNat ≤ 0xFFE) (stack : ∀ k : Fin 16, (s.stack[k]).toNat ≤ 0x1000) :
    (pcAfter i s).toNat ≤ 0x10FE := by
  have two := toNat_add_two hp
  have four := toNat_add_four hp
  cases i with
  | jp nnn | call nnn =>
    have hn := nnn.isLt
    simp only [pcAfter, BitVec.toNat_ofNat]; omega
  | jpV0 nnn =>
    have hn := nnn.isLt
    have hb := (s.getV 0#4).isLt
    simp only [pcAfter, BitVec.toNat_ofNat]; omega
  | ret =>
    have top := stack ⟨s.sp.val - 1, by have := s.sp.isLt; omega⟩
    exact top.trans (by decide)
  | seByte | sneByte | seReg | sneReg | skp | sknp =>
    simp only [pcAfter]
    split <;> omega
  | cls | ldByte | addByte | ldReg | orReg | andReg | xorReg | addReg | subReg | shr | subnReg | shl | ldI | rnd | drw
  | ldFromDT | waitKey | ldToDT | ldToST | addI | ldFont | bcd | dump | load =>
    exact two.trans_le (by omega)

/-- The only entry an instruction writes is the `pc + 2` a call pushes. -/
theorem exec_stack_le {i : Instr} {s t : State} (hp : s.pc.toNat ≤ 0xFFE)
    (stack : ∀ k : Fin 16, (s.stack[k]).toNat ≤ 0x1000) (h : exec i s = .next t) :
    ∀ k : Fin 16, (t.stack[k]).toNat ≤ 0x1000 := by
  intro k
  by_cases same : t.stack = s.stack
  · rw [same]; exact stack k
  · obtain ⟨nnn, rfl⟩ := (stackIsNotMemory i s t h).1 same
    by_cases room : s.sp.val < 16
    · cases (exec_call_of_room nnn room).symm.trans h
      by_cases pushed : s.sp.val = k.val
      · have entry : (s.stack.set s.sp.val (s.pc + 2#16) room)[k] = s.pc + 2#16 := by simp [pushed]
        have bound := toNat_add_two hp
        simp only [State.jump_stack, State.push_stack, entry]; omega
      · exact (congrArg BitVec.toNat (Vector.getElem_set_ne room k.isLt pushed)).trans_le (stack k)
    · cases (exec_call_of_full nnn room).symm.trans h
      exact stack k

/-- What answered is the state with a fault latched, or the instruction ran. -/
theorem exec_effect {i : Instr} {s t : State} (h : exec i s = .next t) : (∃ f, t = s.latch f) ∨ Ran i s t := by
  obtain ⟨f, -, e⟩ | ⟨-, t', e, ran⟩ := exec_cases i s
  · cases e.symm.trans h; exact .inl ⟨f, rfl⟩
  · cases e.symm.trans h; exact .inr ran

theorem exec_inv {i : Instr} {s t : State} (hs : s.Inv) (hp : s.pc.toNat ≤ 0xFFE) (h : exec i s = .next t) : t.Inv := by
  obtain ⟨wf, -, stack⟩ := hs
  obtain ⟨f, rfl⟩ | ran := exec_effect h
  · exact ⟨wf, hp.trans (by decide), stack⟩
  · exact ⟨ran.wf wf, ran.pc ▸ pcAfter_le i hp stack, exec_stack_le hp stack h⟩

theorem cycle_inv {s t : State} (hs : s.Inv) (h : cycle s = .next t) : t.Inv := by
  obtain ⟨-, e⟩ | ⟨-, -, -, e⟩ | ⟨-, hp, -, e⟩ | ⟨-, hp, i, -, e⟩ := cycle_cases_instrAtPc s
  · cases e.symm.trans h
    rw [deliverKey_eq]; exact hs
  · cases e.symm.trans h
    exact hs
  · cases e.symm.trans h
    exact ⟨hs.1, (toNat_add_two hp).trans_le (by omega), hs.2.2⟩
  · exact exec_inv hs hp (e.symm.trans h)

theorem opTick_inv {s : State} (hs : s.Inv) : (opTick s).Inv := by
  rw [opTick_eq]; exact hs

theorem reset_inv : State.reset.Inv := by decide

theorem perform_inv {op : HostOp} {s t : State} (hs : s.Inv) (h : perform op s = .next t) : t.Inv := by
  cases op with
  | reset => cases h; exact reset_inv
  | load bytes =>
    cases h
    have wf := opLoad_wf bytes s hs.1
    rw [opLoad_eq]; exact ⟨wf, hs.2⟩
  | tick => cases h; exact opTick_inv hs
  | step keys rnd =>
    obtain ⟨-, e⟩ | ⟨-, e⟩ := opStep_cases keys rnd s
    · cases e.symm.trans h; exact hs
    · exact cycle_inv (s := s.begin keys rnd) hs (e.symm.trans h)

/-- Settles O20: every operation keeps the invariant, so every step does. -/
theorem stepKeepsTheInvariant : Obligations.StepKeepsTheInvariant := fun _ _ =>
  step_keeps (fun _ _ hs => hs) (fun _ _ hs => hs) (fun _ _ _ => perform_inv)

/-! ### A latched fault explains itself (60_exceptions.md R162, R163) -/

theorem faultExplained_of_no_fault {s : State} (h : s.fault = none) : s.FaultExplained := by
  intro f hf
  cases h.symm.trans hf

/-- Settles O19: the bounds by evaluation, and no fault is latched after reset. -/
theorem resetMeetsTheInvariants : Obligations.ResetMeetsTheInvariants := ⟨reset_inv, faultExplained_of_no_fault rfl⟩

/-- A fault raised by phases 2 and 3 is raised by the fetch or by the instruction at `pc`, and either leaves the state it was
raised in but for the latch. -/
theorem cycle_faultExplained {s t : State} (hf : s.fault = none) (h : cycle s = .next t) : t.FaultExplained := by
  obtain ⟨-, e⟩ | ⟨-, out, -, e⟩ | ⟨-, -, -, e⟩ | ⟨-, -, i, hi, e⟩ := cycle_cases_instrAtPc s
  · cases e.symm.trans h
    exact faultExplained_of_no_fault ((congrArg State.fault (deliverKey_eq s)).trans hf)
  · cases e.symm.trans h
    intro f raised
    cases raised
    exact .inl ⟨out, rfl⟩
  · cases e.symm.trans h
    exact faultExplained_of_no_fault hf
  · obtain ⟨f, cause, e'⟩ | ⟨-, t', e', ran⟩ := exec_cases i s
    · cases e'.symm.trans (e.symm.trans h)
      intro f' raised
      cases raised
      exact .inr ⟨i, hi, cause⟩
    · cases e'.symm.trans (e.symm.trans h)
      exact faultExplained_of_no_fault (ran.frame.fault.trans hf)

theorem opTick_fault (s : State) : (opTick s).fault = s.fault := by
  rw [opTick_eq]

theorem perform_faultExplained {op : HostOp} {s t : State} (hs : s.FaultExplained) (h : perform op s = .next t) :
    t.FaultExplained := by
  by_cases hf : s.fault = none
  · cases op with
    | reset => cases h; exact faultExplained_of_no_fault rfl
    | load bytes => cases h; exact faultExplained_of_no_fault (by rw [opLoad_eq]; exact hf)
    | tick => cases h; exact faultExplained_of_no_fault ((opTick_fault s).trans hf)
    | step keys rnd => exact cycle_faultExplained (s := s.begin keys rnd) hf ((opStep_of_no_fault keys rnd hf).symm.trans h)
  · obtain ⟨step_still, tick_still, -, load_still, -, -⟩ := faultedCoreStandsStill s hf
    cases op with
    | reset => cases h; exact faultExplained_of_no_fault rfl
    | load bytes => cases h; rw [load_still]; exact hs
    | tick => cases h; rw [tick_still]; exact hs
    | step keys rnd => cases (step_still keys rnd).symm.trans h; exact hs

/-- Settles O21: every operation keeps a fault explained; one that finds the core faulted leaves it as it is. -/
theorem stepKeepsFaultsExplained : Obligations.StepKeepsFaultsExplained := fun _ _ =>
  step_keeps (fun _ _ hs => hs) (fun _ _ hs => hs) (fun _ _ _ => perform_faultExplained)

/-! ### Who begins the key-wait and who writes the timers (10_state.md R26, R29, 60_exceptions.md R172) -/

theorem wait_of_writesOf {i : Instr} {s : State} (h : (writesOf i s).wait = true) : ∃ x, i = .waitKey x := by
  cases i with
  | waitKey x => exact ⟨x, rfl⟩
  | _ => cases h

theorem dt_of_writesOf {i : Instr} {s : State} (h : (writesOf i s).dt = true) : ∃ x, i = .ldToDT x := by
  cases i with
  | ldToDT x => exact ⟨x, rfl⟩
  | _ => cases h

theorem st_of_writesOf {i : Instr} {s : State} (h : (writesOf i s).st = true) : ∃ x, i = .ldToST x := by
  cases i with
  | ldToST x => exact ⟨x, rfl⟩
  | _ => cases h

/-- A core that does not wait latches a fault, advances, or runs the instruction at `pc`. -/
theorem cycle_effect {s t : State} (hw : s.waiting = false) (h : cycle s = .next t) :
    (∃ f, t = s.latch f) ∨ t = s.advance ∨ ∃ i, s.instrAtPc = some i ∧ exec i s = .next t ∧ Ran i s t := by
  obtain ⟨hw', -⟩ | ⟨-, -, -, e⟩ | ⟨-, -, -, e⟩ | ⟨-, -, i, hi, e⟩ := cycle_cases_instrAtPc s
  · cases hw.symm.trans hw'
  · cases e.symm.trans h; exact .inl ⟨_, rfl⟩
  · cases e.symm.trans h; exact .inr (.inl rfl)
  · have hexec : exec i s = .next t := e.symm.trans h
    exact (exec_effect hexec).imp_right fun ran => .inr ⟨i, hi, hexec, ran⟩

/-- A field that neither a latched fault nor an advance changes is changed only by an instruction that may write it. -/
theorem cycle_writer {α : Type} (field : State → α) (may : Writes → Bool)
    (kept : ∀ {w : Writes} {s t : State}, Frame w s t → may w = false → field t = field s)
    (latch : ∀ s f, field (State.latch s f) = field s) (advance : ∀ s, field (State.advance s) = field s) {s t : State}
    (hw : s.waiting = false) (h : cycle s = .next t) (hne : field t ≠ field s) :
    ∃ i, s.instrAtPc = some i ∧ exec i s = .next t ∧ may (writesOf i s) = true := by
  obtain ⟨f, rfl⟩ | rfl | ⟨i, hi, hexec, ran⟩ := cycle_effect hw h
  · exact absurd (latch s f) hne
  · exact absurd (advance s) hne
  · exact ⟨i, hi, hexec, Bool.of_not_eq_false fun hn => hne (kept ran.frame hn)⟩

theorem cycle_begins_wait {s t : State} (hw : s.waiting = false) (h : cycle s = .next t) (ht : t.waiting = true) :
    ∃ x, s.instrAtPc = some (.waitKey x) ∧ t.waitReg = x := by
  obtain ⟨i, hi, hexec, hwrites⟩ := cycle_writer State.waiting Writes.wait (fun frame hn => (frame.wait hn).1)
    (fun _ _ => rfl) (fun _ => rfl) hw h (by simp [hw, ht])
  obtain ⟨x, rfl⟩ := wait_of_writesOf hwrites
  cases hexec; exact ⟨x, hi, rfl⟩

theorem cycle_writes_dt {s t : State} (hw : s.waiting = false) (h : cycle s = .next t) (hne : t.dt ≠ s.dt) :
    ∃ x, s.instrAtPc = some (.ldToDT x) ∧ t.dt = s.getV x := by
  obtain ⟨i, hi, hexec, hwrites⟩ := cycle_writer State.dt Writes.dt Frame.dt (fun _ _ => rfl) (fun _ => rfl) hw h hne
  obtain ⟨x, rfl⟩ := dt_of_writesOf hwrites
  cases hexec; exact ⟨x, hi, rfl⟩

theorem cycle_writes_st {s t : State} (hw : s.waiting = false) (h : cycle s = .next t) (hne : t.st ≠ s.st) :
    ∃ x, s.instrAtPc = some (.ldToST x) ∧ t.st = s.getV x := by
  obtain ⟨i, hi, hexec, hwrites⟩ := cycle_writer State.st Writes.st Frame.st (fun _ _ => rfl) (fun _ => rfl) hw h hne
  obtain ⟨x, rfl⟩ := st_of_writesOf hwrites
  cases hexec; exact ⟨x, hi, rfl⟩

theorem opTick_waiting (s : State) : (opTick s).waiting = s.waiting := by
  rw [opTick_eq]

theorem opLoad_waiting (bytes : List Byte) (s : State) : (opLoad bytes s).waiting = s.waiting := by
  rw [opLoad_eq]

theorem perform_begins_wait {op : HostOp} {s t : State} (h : perform op s = .next t) (hw : s.waiting = false)
    (ht : t.waiting = true) :
    ∃ keys rnd x, op = .step keys rnd ∧ s.fault = none ∧ s.instrAtPc = some (.waitKey x) ∧ t.waitReg = x := by
  cases op with
  | reset => cases h; cases ht
  | load bytes => cases h; cases hw.symm.trans ((opLoad_waiting bytes s).symm.trans ht)
  | tick => cases h; cases hw.symm.trans ((opTick_waiting s).symm.trans ht)
  | step keys rnd =>
    obtain ⟨-, e⟩ | ⟨hf, e⟩ := opStep_cases keys rnd s
    · cases e.symm.trans h; cases hw.symm.trans ht
    · obtain ⟨x, hi, hx⟩ := cycle_begins_wait (s := s.begin keys rnd) hw (e.symm.trans h) ht
      exact ⟨keys, rnd, x, rfl, hf, hi, hx⟩

theorem perform_ends_wait {op : HostOp} {s t : State} (h : perform op s = .next t) (hw : s.waiting = true)
    (ht : t.waiting = false) : op = .reset ∨ ∃ keys rnd, op = .step keys rnd ∧ keys ≠ 0#16 := by
  cases op with
  | reset => exact .inl rfl
  | load bytes => cases h; cases hw.symm.trans ((opLoad_waiting bytes s).symm.trans ht)
  | tick => cases h; cases hw.symm.trans ((opTick_waiting s).symm.trans ht)
  | step keys rnd =>
    refine .inr ⟨keys, rnd, rfl, fun none_pressed => ?_⟩
    obtain ⟨-, e⟩ | ⟨hf, -⟩ := opStep_cases keys rnd s
    · cases e.symm.trans h; cases hw.symm.trans ht
    · have e := opStep_of_waiting keys rnd hf hw
      rw [deliverKey_of_no_key none_pressed] at e
      cases e.symm.trans h; cases hw.symm.trans ht

/-- Settles O23: of the operations only a STEP that runs Fx0A sets `waiting`, and a STEP without a key delivers none. -/
theorem keyWaitBeginsAndEndsAsStated : Obligations.KeyWaitBeginsAndEndsAsStated := fun _ _ _ h =>
  ⟨perform_begins_wait h, perform_ends_wait h⟩

/-- A STEP that changes a timer finds the core running. -/
theorem running_of_timer_changed {keys : BitVec 16} {rnd : Byte} {s t : State} (h : opStep keys rnd s = .next t)
    (hne : ¬ s.SameTimers t) : s.fault = none ∧ s.waiting = false ∧ cycle (s.begin keys rnd) = .next t := by
  obtain ⟨-, e⟩ | ⟨hf, e⟩ := opStep_cases keys rnd s
  · cases e.symm.trans h; exact absurd ⟨rfl, rfl⟩ hne
  · exact ⟨hf, Bool.eq_false_iff.2 fun hw => hne (opStep_sameTimers_of_waiting hw h), e.symm.trans h⟩

/-- Settles O25: a STEP that changes a timer runs an instruction, and the frames leave Fx15 and Fx18. -/
theorem stepWritesTimersOnlyByTheirInstructions : Obligations.StepWritesTimersOnlyByTheirInstructions := by
  refine fun s t keys rnd h => ⟨fun hne => ?_, fun hne => ?_⟩
  · obtain ⟨hf, hw, e⟩ := running_of_timer_changed h (fun same => hne same.1)
    exact ⟨hf, hw, cycle_writes_dt (s := s.begin keys rnd) hw e hne⟩
  · obtain ⟨hf, hw, e⟩ := running_of_timer_changed h (fun same => hne same.2)
    exact ⟨hf, hw, cycle_writes_st (s := s.begin keys rnd) hw e hne⟩

/-! ### Where `pc` goes (40_step_cycle.md R96) -/

theorem deliverKey_pc (s : State) : (deliverKey s).pc = s.pc := by
  rw [deliverKey_eq]

/-- Settles O28: a fault keeps `pc` and what runs moves it as its rule says; the STEPs that run no instruction, by cases. -/
theorem pcMovesExactlyOnce : Obligations.PcMovesExactlyOnce := by
  refine ⟨fun i s t h => ?_, fun s t keys rnd hf h => ⟨fun hw => ?_, fun hw hn => ?_⟩⟩
  · obtain ⟨f, hfault, e⟩ | ⟨hfault, t', e, ran⟩ := exec_cases i s
    · cases e.symm.trans h
      rw [hfault]; rfl
    · cases e.symm.trans h
      rw [hfault]; exact ran.pc
  · cases (opStep_of_waiting keys rnd hf hw).symm.trans h
    exact deliverKey_pc (s.begin keys rnd)
  · rw [opStep_of_no_fault keys rnd hf] at h
    by_cases out : 0xFFE < s.pc.toNat
    · cases (cycle_of_pc_out (s := s.begin keys rnd) hw out).symm.trans h
      rw [if_pos out]; rfl
    · cases (cycle_of_unrecognised (s := s.begin keys rnd) hw (not_lt.1 out) hn).symm.trans h
      rw [if_neg out]; rfl

/-! ### The end of a program (70_reset_and_hazards.md R188) -/

/-- An ended program does not wait and has a jump to itself at `pc`. -/
theorem selfJump_of_ended {s : State} (h : s.ended = true) :
    s.waiting = false ∧ ∃ nnn, s.instrAtPc = some (.jp nnn) ∧ nnn.toNat = s.pc.toNat := by
  rw [State.ended, Bool.and_eq_true, Bool.not_eq_true'] at h
  obtain ⟨hw, hjump⟩ := h
  refine ⟨hw, ?_⟩
  split at hjump
  · next nnn hi => exact ⟨nnn, hi, beq_iff_eq.1 hjump⟩
  · cases hjump

/-- A jump to where `pc` is changes nothing. -/
theorem exec_jp_self {nnn : Addr} {s : State} (h : nnn.toNat = s.pc.toNat) : exec (.jp nnn) s = .next s := by
  have target : zextAddr nnn = s.pc := by rw [zextAddr_eq_ofNat, h, BitVec.ofNat_toNat, BitVec.setWidth_eq]
  show Host.Outcome.next (s.jump (zextAddr nnn)) = _
  rw [target]; rfl

/-- Settles O31: the STEP runs the jump to itself, which leaves what phase 1 left. -/
theorem endedProgramStaysEnded : Obligations.EndedProgramStaysEnded := by
  intro s keys rnd hf hend
  obtain ⟨hw, nnn, hi, self⟩ := selfJump_of_ended hend
  exact ⟨_, (opStep_of_instr keys rnd hf hw hi).trans (exec_jp_self (s := s.begin keys rnd) self), rfl, hend⟩

end Sys2Proof.Machine
end

section
/-! What each instruction does to the state: control flow (41_control_flow.md), arithmetic and logic (42_alu.md), the index
register (43_index_memory.md), the display (44_display.md), the keypad and the timers (45_keypad_timers.md). -/

namespace Sys2Proof.Machine

/-! ### Jumps (41_control_flow.md R101, R104) -/

theorem exec_jp (nnn : Addr) (s : State) : exec (.jp nnn) s = .next (s.jump (BitVec.ofNat 16 nnn.toNat)) := by
  rw [← zextAddr_eq_ofNat]; rfl

theorem exec_jpV0 (nnn : Addr) (s : State) :
    exec (.jpV0 nnn) s = .next (s.jump (BitVec.ofNat 16 (nnn.toNat + (s.getV 0#4).toNat))) := by
  rw [← zextAddr_add_zextByte]; rfl

/-- Settles O37: the two targets as numbers. -/
theorem jumpsSetPc : Obligations.JumpsSetPc := fun nnn s => ⟨exec_jp nnn s, exec_jpV0 nnn s⟩

/-! ### Call and return (41_control_flow.md R102, R103) -/

/-- Settles O38: the call's two equations, and the entry it sets. -/
theorem callPushesTheNextAddress : Obligations.CallPushesTheNextAddress := fun nnn s =>
  ⟨fun room => ⟨_, exec_call_of_room nnn room, Vector.getElem_set_self room, rfl, zextAddr_eq_ofNat nnn⟩,
    fun full => exec_call_of_full nnn (by omega)⟩

/-- Settles O39: the return's two equations. -/
theorem returnPopsTheTop : Obligations.ReturnPopsTheTop := fun s =>
  ⟨fun used => ⟨_, exec_ret_of_used used, rfl, rfl, rfl⟩, fun empty => exec_ret_of_empty (by omega)⟩

/-- With the stack as a push left it, the top is the entry pushed. -/
theorem top_of_push {s u : State} {a : Word} (room : s.sp.val < 16) (stack : u.stack = (s.push a room).stack)
    (sp : u.sp = (s.push a room).sp) (used : 0 < u.sp.val) : u.top used = a := by
  simp [State.top, stack, sp]

/-- Settles O40: the return finds on top what the call pushed. -/
theorem callThenReturnComesBack : Obligations.CallThenReturnComesBack := by
  intro nnn s u room
  refine ⟨_, exec_call_of_room nnn room, fun stack sp => ?_⟩
  have depth : u.sp.val = s.sp.val + 1 := congrArg Fin.val sp
  have used : 0 < u.sp.val := by omega
  refine ⟨_, exec_ret_of_used used, top_of_push room stack sp used, Fin.ext ?_⟩
  rw [State.jump_sp, State.pop_sp_val, depth, Nat.add_sub_cancel]

/-! ### Skips (41_control_flow.md section 3, 45_keypad_timers.md section 2) -/

theorem exec_of_skip {i : Instr} {s : State} {p : Prop} [Decidable p] (h : exec i s = .next (s.skipIf (decide p))) :
    exec i s = .next { s with pc := if p then s.pc + 4#16 else s.pc + 2#16 } := by
  rw [h, s.skipIf_decide]; rfl

theorem exec_of_skip_not {i : Instr} {s : State} {p : Prop} [Decidable p]
    (h : exec i s = .next (s.skipIf (decide (¬ p)))) :
    exec i s = .next { s with pc := if p then s.pc + 2#16 else s.pc + 4#16 } := by
  rw [exec_of_skip h, ite_not]

/-- Settles O41: each is a skip on its condition or on the condition's negation. -/
theorem registerSkips : Obligations.RegisterSkips := fun _ _ _ _ =>
  ⟨exec_of_skip rfl, exec_of_skip_not rfl, exec_of_skip rfl, exec_of_skip_not rfl⟩

/-- Settles O42: skips on `KeyDown` and on its negation. -/
theorem keySkips : Obligations.KeySkips := by
  intro x s
  have skp := exec_of_skip (exec_skp x s)
  have sknp := exec_of_skip_not (exec_sknp x s)
  refine ⟨fun down => ?_, fun up => ?_⟩
  · rw [skp, sknp, if_pos down, if_pos down]; exact ⟨rfl, rfl⟩
  · rw [skp, sknp, if_neg up, if_neg up]; exact ⟨rfl, rfl⟩

/-! ### Instructions that write one register (42_alu.md sections 2, 3 and 5) -/

/-- An instruction whose meaning is to write a byte to a register. -/
theorem exec_of_writeReg {i : Instr} {x : Nibble} {b : Byte} {s : State} (h : exec i s = writeReg x b s) :
    ∃ t, exec i s = .next t ∧ t.getV x = b ∧ (∀ r, r ≠ x → t.getV r = s.getV r) ∧
      t = { s with v := t.v, pc := s.pc + 2#16 } := by
  rw [h]; exact writeReg_effect x b s

/-- Settles O43: the byte each writes, and its bits. -/
theorem loadsAndLogicWriteVx : Obligations.LoadsAndLogicWriteVx := by
  intro x y kk s
  refine ⟨?_, ?_, ?_, ?_, ?_⟩
  · obtain ⟨t, h, hx, others, -⟩ := exec_of_writeReg (i := .ldByte x kk) (s := s) rfl
    exact ⟨t, h, hx, others⟩
  · obtain ⟨t, h, hx, others, -⟩ := exec_of_writeReg (i := .ldReg x y) (s := s) rfl
    exact ⟨t, h, hx, others⟩
  · obtain ⟨t, h, hx, others, -⟩ := exec_of_writeReg (i := .orReg x y) (s := s) rfl
    exact ⟨t, h, others, fun k => by rw [hx, BitVec.getLsbD_or]⟩
  · obtain ⟨t, h, hx, others, -⟩ := exec_of_writeReg (i := .andReg x y) (s := s) rfl
    exact ⟨t, h, others, fun k => by rw [hx, BitVec.getLsbD_and]⟩
  · obtain ⟨t, h, hx, others, -⟩ := exec_of_writeReg (i := .xorReg x y) (s := s) rfl
    exact ⟨t, h, others, fun k => by rw [hx, BitVec.getLsbD_xor]⟩

/-- Settles O50: the bits of an AND, which is at most either operand. -/
theorem randomIsMaskedByKk : Obligations.RandomIsMaskedByKk := by
  intro x kk s
  obtain ⟨t, h, hx, others, -⟩ := exec_of_writeReg (i := .rnd x kk) (s := s) rfl
  refine ⟨t, h, fun k => by rw [hx, BitVec.getLsbD_and], ?_, others⟩
  rw [hx, BitVec.toNat_and]
  exact Nat.and_le_right

/-! ### Flags (42_alu.md R110) -/

theorem flagByte_toNat (c : Bool) : (flagByte c).toNat = c.toNat := by
  cases c <;> rfl

theorem flagByte_decide (p : Prop) [Decidable p] : flagByte (decide p) = if p then 1#8 else 0#8 := by
  simp [flagByte]

theorem notBorrowFlag_toNat (a b : Byte) : (notBorrowFlag a b).toNat = if a.toNat > b.toNat then 1 else 0 := by
  rw [notBorrowFlag, flagByte_decide, apply_ite BitVec.toNat]; rfl

theorem shiftRightFlag_toNat (a : Byte) : (shiftRightFlag a).toNat = a.toNat % 2 := by
  rw [shiftRightFlag, flagByte_toNat, BitVec.getLsbD, Nat.toNat_testBit, pow_zero, Nat.div_one]

theorem shiftLeftFlag_toNat (a : Byte) : (shiftLeftFlag a).toNat = a.toNat / 128 := by
  have := a.isLt
  rw [shiftLeftFlag, flagByte_toNat, BitVec.getLsbD, Nat.toNat_testBit]
  omega

theorem byte_sub_toNat (a b : Byte) : (a - b).toNat = (a.toNat + 256 - b.toNat) % 256 := by
  have := b.isLt
  rw [BitVec.toNat_sub]
  congr 1; omega

/-- Settles O45: the carry is of the old values, and it is the last write. -/
theorem addRegSetsTheCarryLast : Obligations.AddRegSetsTheCarryLast := by
  intro x y s
  obtain ⟨t, h, flag, others, frame⟩ :=
    writeReg_effect regF (carryFlag (s.getV x) (s.getV y)) (s.setV x (s.getV x + s.getV y))
  refine ⟨t, h, flag.trans (flagByte_decide _), fun hx => ?_, by rw [frame]; rfl⟩
  rw [others x hx, State.setV_getV_same, BitVec.toNat_add]

/-- The flag first, then `V[x]` from the registers read again (R110 (f)). -/
theorem flagThenReg_effect (flag : Byte) (x : Nibble) (f : State → Byte) (s : State) :
    ∃ t, flagThenReg flag x f s = .next t ∧ t.pc = s.pc + 2#16 ∧ (x ≠ regF → t.getV regF = flag) ∧
      t.getV x = f (s.setV regF flag) := by
  refine ⟨_, flagThenReg_eq flag x f s, rfl, fun hx => ?_, State.setV_getV_same _ _ _⟩
  rw [State.jump_getV, State.setV_getV_other _ _ hx, State.setV_getV_same]

/-- A register read again once VF holds the flag. -/
theorem setV_regF_getV_toNat (s : State) (flag : Byte) (r : Nibble) :
    ((s.setV regF flag).getV r).toNat = if r = regF then flag.toNat else (s.getV r).toNat := by
  rw [State.setV_getV, apply_ite BitVec.toNat]
  simp only [eq_comm]

/-- The subtraction `V[p] - V[q]` into `V[x]`, its not-borrow written first: an operand that is VF reads as that flag. -/
theorem flagThenReg_sub (x p q : Nibble) (s : State) {flag : Nat}
    (hflag : flag = if (s.getV p).toNat > (s.getV q).toNat then 1 else 0) :
    ∃ t, flagThenReg (notBorrowFlag (s.getV p) (s.getV q)) x (fun u => u.getV p - u.getV q) s = .next t ∧
      t.pc = s.pc + 2#16 ∧ (x ≠ regF → (t.getV regF).toNat = flag) ∧
      (t.getV x).toNat = ((if p = regF then flag else (s.getV p).toNat) + 256 -
        (if q = regF then flag else (s.getV q).toNat)) % 256 := by
  obtain ⟨t, h, hpc, written, diff⟩ := flagThenReg_effect (notBorrowFlag (s.getV p) (s.getV q)) x
    (fun u => u.getV p - u.getV q) s
  rw [← notBorrowFlag_toNat] at hflag
  refine ⟨t, h, hpc, fun hx => by rw [written hx, hflag], ?_⟩
  rw [diff, byte_sub_toNat, setV_regF_getV_toNat, setV_regF_getV_toNat, hflag]

/-- A difference that is 0 modulo 256, as a byte. -/
theorem eq_zero_of_sub_self {b : Byte} {flag : Nat} (h : b.toNat = (flag + 256 - flag) % 256) : b = 0#8 := by
  apply BitVec.eq_of_toNat_eq
  rw [h, Nat.add_sub_cancel_left, Nat.mod_self]; rfl

/-- Settles O46: the subtraction with `V[x]` the minuend, in the four cases of which operand is VF. -/
theorem subRegWritesTheFlagFirst : Obligations.SubRegWritesTheFlagFirst := by
  intro x y s
  obtain ⟨t, h, hpc, written, diff⟩ := flagThenReg_sub x x y s rfl
  refine ⟨t, h, hpc, written, fun hx hy => ?_, fun hx hy => ?_, ?_, ?_⟩
  · rw [diff, if_neg hx, if_neg hy]
  · rw [diff, if_neg hx, if_pos hy]
  · rintro rfl hy
    rw [diff, if_pos rfl, if_neg hy]
  · rintro rfl rfl
    exact eq_zero_of_sub_self (diff.trans (by rw [if_pos rfl]))

/-- Settles O47: the subtraction with `V[y]` the minuend, in the same four cases. -/
theorem subnRegWritesTheFlagFirst : Obligations.SubnRegWritesTheFlagFirst := by
  intro x y s
  obtain ⟨t, h, hpc, written, diff⟩ := flagThenReg_sub x y x s rfl
  refine ⟨t, h, hpc, written, fun hx hy => ?_, fun hx hy => ?_, ?_, ?_⟩
  · rw [diff, if_neg hx, if_neg hy]
  · rw [diff, if_neg hx, if_pos hy]
  · rintro rfl hy
    rw [diff, if_pos rfl, if_neg hy]
  · rintro rfl rfl
    exact eq_zero_of_sub_self (diff.trans (by rw [if_pos rfl]))

/-! ### Shifts (42_alu.md R119, R121) -/

theorem byte_shiftRight_toNat (a : Byte) : (a >>> 1).toNat = a.toNat / 2 := by
  rw [BitVec.toNat_ushiftRight, Nat.shiftRight_eq_div_pow, pow_one]

theorem byte_shiftLeft_toNat (a : Byte) : (a <<< 1).toNat = a.toNat * 2 % 256 := by
  rw [BitVec.toNat_shiftLeft, Nat.shiftLeft_eq, pow_one]

/-- Settles O48: the shift is of the register read again, which is the flag where `x` is F. -/
theorem shiftsMoveOneBitIntoVF : Obligations.ShiftsMoveOneBitIntoVF := by
  intro x y s
  dsimp only
  constructor
  · obtain ⟨t, h, hpc, flag, value⟩ := flagThenReg_effect (shiftRightFlag (s.getV x)) x (fun s₁ => s₁.getV x >>> 1) s
    refine ⟨t, h, hpc, fun hx => ⟨?_, ?_⟩, ?_⟩
    · rw [flag hx, shiftRightFlag_toNat]
    · rw [value, s.setV_getV_other _ hx.symm, byte_shiftRight_toNat]
    · rintro rfl
      apply BitVec.eq_of_toNat_eq
      rw [value, s.setV_getV_same, byte_shiftRight_toNat, shiftRightFlag_toNat, BitVec.toNat_ofNat]
      omega
  · obtain ⟨t, h, hpc, flag, value⟩ := flagThenReg_effect (shiftLeftFlag (s.getV x)) x (fun s₁ => s₁.getV x <<< 1) s
    refine ⟨t, h, hpc, fun hx => ⟨?_, ?_⟩, ?_⟩
    · rw [flag hx, shiftLeftFlag_toNat]
    · rw [value, s.setV_getV_other _ hx.symm, byte_shiftLeft_toNat]
    · rintro rfl
      have := (s.getV regF).isLt
      rw [value, s.setV_getV_same, byte_shiftLeft_toNat, shiftLeftFlag_toNat]
      split <;> omega

/-- A register that is neither `V[x]` nor VF, and that the value does not depend on, is neither read nor written. -/
theorem flagThenReg_setV {flag : Byte} {x y : Nibble} {f : State → Byte} (s : State) (b : Byte) (hx : y ≠ x)
    (hF : y ≠ regF) (hf : ∀ u : State, f (u.setV y b) = f u) :
    ∃ t, flagThenReg flag x f s = .next t ∧ flagThenReg flag x f (s.setV y b) = .next (t.setV y b) ∧
      t.getV y = s.getV y := by
  refine ⟨_, flagThenReg_eq flag x f s, ?_, ?_⟩
  · rw [flagThenReg_eq, s.setV_comm b flag hF, hf, State.setV_comm _ b _ hx]; rfl
  · rw [State.jump_getV, State.setV_getV_other _ _ hx.symm, State.setV_getV_other _ _ hF.symm]

/-- Settles O49: `y` is decoded, the meanings do not name it, and `V[y]` is a register the shift does not depend on. -/
theorem shiftsIgnoreTheYField : Obligations.ShiftsIgnoreTheYField := by
  intro x y z s
  refine ⟨decodeWord_encode _, decodeWord_encode _, rfl, rfl, fun hx hF b => ?_⟩
  have read : ∀ u : State, (u.setV y b).getV x = u.getV x := fun u => u.setV_getV_other b hx
  have shr := flagThenReg_setV (flag := shiftRightFlag (s.getV x)) (f := fun u => u.getV x >>> 1) s b hx hF
    (fun u => by rw [read])
  have shl := flagThenReg_setV (flag := shiftLeftFlag (s.getV x)) (f := fun u => u.getV x <<< 1) s b hx hF
    (fun u => by rw [read])
  constructor
  · show ∃ t, execShr x y s = .next t ∧ execShr x y (s.setV y b) = .next (t.setV y b) ∧ _
    simpa only [execShr, read] using shr
  · show ∃ t, execShl x y s = .next t ∧ execShl x y (s.setV y b) = .next (t.setV y b) ∧ _
    simpa only [execShl, read] using shl

/-! ### The index register (43_index_memory.md section 2) -/

theorem zextByte_toNat (b : Byte) : (zextByte b).toNat = b.toNat := by
  have := b.isLt
  rw [zextByte, BitVec.toNat_setWidth]; omega

/-- Settles O51: the three values as numbers. -/
theorem indexRegisterResults : Obligations.IndexRegisterResults := by
  intro x nnn s
  have sum : s.i + zextByte (s.getV x) = BitVec.ofNat 16 ((s.i.toNat + (s.getV x).toNat) % 65536) := by
    apply BitVec.eq_of_toNat_eq
    rw [BitVec.toNat_add, zextByte_toNat, BitVec.toNat_ofNat, Nat.mod_mod]
  have glyph : zextByte (s.getV x) * 5#16 = BitVec.ofNat 16 ((s.getV x).toNat * 5) := by
    apply BitVec.eq_of_toNat_eq
    rw [BitVec.toNat_mul, zextByte_toNat, BitVec.toNat_ofNat, BitVec.toNat_ofNat]
  refine ⟨?_, ?_, ?_⟩
  · rw [← zextAddr_eq_ofNat]; rfl
  · rw [← sum]; rfl
  · rw [← glyph]; rfl

/-- Settles O55: Fx55 leaves `I` alone and puts `V[r]` where Fx65 reads it. -/
theorem dumpThenLoadRestoresRegisters : Obligations.DumpThenLoadRestoresRegisters := by
  intro x s v fits
  obtain ⟨t, hdump, stored, -, frame⟩ := (dumpStoresV0ToVx.2 x s).1 fits
  have same_i : t.i = s.i := by rw [frame]
  obtain ⟨u, hload, loaded, -, -⟩ := (loadFillsV0ToVx.2 x { t with v := v }).1 (by rw [← same_i] at fits; exact fits)
  refine ⟨t, u, hdump, hload, fun r hr => ?_⟩
  rw [loaded r hr, ← stored r hr, ← same_i]

/-! ### The display (44_display.md R141 to R144) -/

/-- Settles O56: the new canvas is blank, and `dirty` records whether the old one was. -/
theorem clsClearsTheCanvas : Obligations.ClsClearsTheCanvas := by
  refine fun s => ⟨(clearCanvas s).advance, rfl, pixelAt_blank, ?_, rfl⟩
  show (s.dirty || decide (s.pix ≠ blankCanvas)) = true ↔ _
  rw [Bool.or_eq_true, decide_eq_true_eq, ne_blank_iff]

/-- The rows of a sprite are the bytes at `I` upward. -/
theorem bytesAtI_eq_map (s : State) (n : Nat) :
    s.bytesAtI n = (List.range n).map (fun r => s.mem.read (s.i.toNat + r)) := by
  apply List.ext_getElem
  · simp
  · intro k _ _
    simp [State.bytesAtI, Memory.readBytes_getElem]

theorem faultOf_drw_of_fits {x y n : Nibble} {s : State} (fits : n = 0#4 ∨ s.i.toNat + n.toNat ≤ 0x1000) :
    faultOf (.drw x y n) s = none := by
  have in_range : ¬ (1 ≤ n.toNat ∧ s.i.toNat + n.toNat - 1 > 0xFFF) := by
    rcases fits with rfl | fits
    · simp
    · omega
  exact if_neg in_range

theorem flagByte_eq_one_iff (c : Bool) : flagByte c = 1#8 ↔ c = true := by
  cases c <;> decide

/-- Settles O57: the sprite engine in closed form (Laws/Display.lean), its collision signal in VF. -/
theorem drawChangesExactlyTheCoveredPixels : Obligations.DrawChangesExactlyTheCoveredPixels := by
  intro x y n s fits
  dsimp only
  rw [← bytesAtI_eq_map]
  have rows : (s.bytesAtI n.toNat).length ≤ 32 := by
    rw [State.bytesAtI_length]; omega
  obtain ⟨out, e⟩ | ⟨-, d, rfl, e⟩ := execDrw_cases x y n s
  · rw [outOfRange_eq_true] at out
    rcases fits with rfl | fits
    · simp at out
    · omega
  · refine ⟨_, e, rfl, fun yy xx => drawSprite_changed _ _ _ s rows yy xx, ?_, ?_, drawSprite_dirty _ _ _ s⟩
    · rw [State.advance_getV, State.setV_getV_same, flagByte]
      split
      · exact .inl rfl
      · exact .inr rfl
    · rw [State.advance_getV, State.setV_getV_same, flagByte_eq_one_iff, drawSprite_collision _ _ _ s rows]

/-- A pixel changed both times or neither time is as it was. -/
theorem eq_of_flipped_twice : ∀ {a b c : Bool}, (a ≠ b ↔ b ≠ c) → a = c := by
  decide

/-- Settles O58: the second draw covers the pixels the first one changed, so it changes them back. -/
theorem drawingTwiceRestoresTheCanvas : Obligations.DrawingTwiceRestoresTheCanvas := by
  intro x y n s hx hy fits
  obtain ⟨t, h, -, changed, -, -, -⟩ := drawChangesExactlyTheCoveredPixels x y n s fits
  have frame : Frame { canvas := true, regs := [regF] } s t := frame_of_exec (faultOf_drw_of_fits fits) rfl h
  have same_i : t.i = s.i := frame.i rfl
  have same_x : t.getV x = s.getV x := frame.regs x (by simpa using hx)
  have same_y : t.getV y = s.getV y := frame.regs y (by simpa using hy)
  have same_mem : ∀ a, t.mem.read a = s.mem.read a := fun a => frame.mem a (by simp)
  obtain ⟨u, h', -, changed', -, collision, -⟩ := drawChangesExactlyTheCoveredPixels x y n t (by rwa [same_i])
  simp only [same_i, same_x, same_y, same_mem] at changed' collision
  dsimp only
  refine ⟨t, u, h, h', canvas_ext _ _ fun yy xx => ?_, ?_⟩
  · exact eq_of_flipped_twice ((changed' yy xx).trans (changed yy xx).symm)
  · rw [collision]
    refine exists_congr fun yy => exists_congr fun xx => and_congr_right fun covered => ?_
    have flipped := (changed yy xx).2 covered
    rw [Bool.eq_not_of_ne flipped, Bool.not_eq_true']

/-! ### The keypad and the timers (45_keypad_timers.md) -/

/-- Settles O59: Fx0A is defined as that update. -/
theorem waitKeyStartsTheWait : Obligations.WaitKeyStartsTheWait := fun _ _ _ => rfl

/-- Settles O60: Fx07 writes one register, Fx15 and Fx18 one timer each. -/
theorem timerInstructions : Obligations.TimerInstructions := fun _ _ =>
  ⟨exec_of_writeReg rfl, rfl, _, rfl, rfl, decide_eq_true_iff⟩

end Sys2Proof.Machine
end
